-- ==== Sys2Proof/Word.lean ====
section
/-! DEFINITION. Words of the machine and their two readings (spec 00_scope.md section 5.1, rules R2 and R3). -/

namespace Sys2Proof

/-- A word: 16 bits, the only unit of memory and of registers (00_scope.md R2). -/
abbrev Word := BitVec 16

/-- `u(w)`: the unsigned value of a word, 0 to 65535 (00_scope.md section 5.1). -/
abbrev unsigned (w : Word) : Nat := w.toNat

/-- `s(w)`: the two's complement value of a word, -32768 to 32767 (00_scope.md R3). -/
abbrev signed (w : Word) : Int := w.toInt

/-- `low16(v)`: the one word congruent to the integer `v` modulo 2^16 (00_scope.md section 5.1). -/
abbrev low16 (v : Int) : Word := BitVec.ofInt 16 v

end Sys2Proof
end

