-- ==== Sys2Proof/Syntax.lean ====
section
/-! DEFINITION. The 23 instructions (spec/opcode_table.json; 30_encoding.md R56, R57, R63) and the fields of a first word
(R51, R52). -/

namespace Sys2Proof

/-- The number of a general register, R0 to R15 (10_state.md R11; 30_encoding.md R55). -/
abbrev Reg := Fin 16

/-- The operand `k` of `jumpc0` and `jumpc1`: a bit of R15 in the source's numbering, 0 = most significant
(30_encoding.md R55). It is not a register number. -/
abbrev BitSel := Fin 16

/-- R15, which doubles as the flag register and as the remainder output of `div` (10_state.md R13). -/
abbrev flagReg : Reg := 15

/-- The two instruction formats (30_encoding.md R50): one word, or two. -/
inductive Format where
  /-- One word: opcode, Rd, Ra, Rb (R51). -/
  | rrr
  /-- Two words: 0xF, Rd, Ra, sub-opcode, then the displacement (R52). -/
  | rx
  deriving DecidableEq, Repr

/-- The four nibbles of a first word, most significant first (30_encoding.md R51, R52, R53). -/
structure Fields where
  /-- `w0[15:12]`: the RRR opcode, or 0xF for the RX format. -/
  op : Fin 16
  /-- `w0[11:8]`: Rd, or `k`. -/
  d : Fin 16
  /-- `w0[7:4]`: Ra. -/
  a : Fin 16
  /-- `w0[3:0]`: Rb, or the RX sub-opcode. -/
  b : Fin 16
  deriving DecidableEq, Repr

/-- The instructions, one constructor per row of spec/opcode_table.json, with the operands of the source's headings
(30_encoding.md R63). `cmp` has no Rd and `inv` no Rb: those nibbles are reserved (R59). `jump` keeps its Rd, which every
word has and nothing reads (R60). -/
inductive Instr where
  | add    (d a b : Reg)
  | sub    (d a b : Reg)
  | mul    (d a b : Reg)
  | div    (d a b : Reg)
  | cmp    (a b : Reg)
  | cmplt  (d a b : Reg)
  | cmpeq  (d a b : Reg)
  | cmpgt  (d a b : Reg)
  | inv    (d a : Reg)
  | and    (d a b : Reg)
  | or     (d a b : Reg)
  | xor    (d a b : Reg)
  | addc   (d a b : Reg)
  | trap   (d a b : Reg)
  | lea    (d a : Reg) (disp : Word)
  | load   (d a : Reg) (disp : Word)
  | store  (d a : Reg) (disp : Word)
  | jump   (d a : Reg) (disp : Word)
  | jumpc0 (k : BitSel) (a : Reg) (disp : Word)
  | jumpc1 (k : BitSel) (a : Reg) (disp : Word)
  | jumpf  (d a : Reg) (disp : Word)
  | jumpt  (d a : Reg) (disp : Word)
  | jal    (d a : Reg) (disp : Word)
  deriving DecidableEq, Repr

end Sys2Proof
end

