-- ==== Sys2Proof/WellFormed.lean ====
section
/-! DEFINITION. Which field values make a defined first word (30_encoding.md R58): one check per ground of illegality, each
with a name. The operand types of Instr leave an instruction nothing else to get wrong. -/

namespace Sys2Proof

/-- RRR opcode 0xE is assigned to nothing (30_encoding.md R61). -/
def Fields.opcodeDefined (f : Fields) : Bool := f.op ≠ 0xE

/-- The Rd nibble of `cmp` is the constant 0 (30_encoding.md R59). -/
def Fields.cmpRdZero (f : Fields) : Bool := f.op ≠ 0x4 ∨ f.d = 0

/-- The Rb nibble of `inv` is the constant 0 (30_encoding.md R59). -/
def Fields.invRbZero (f : Fields) : Bool := f.op ≠ 0x8 ∨ f.b = 0

/-- RX sub-opcodes 0x9 to 0xF are assigned to nothing (30_encoding.md R61). -/
def Fields.subOpcodeDefined (f : Fields) : Bool := f.op ≠ 0xF ∨ f.b ≤ 0x8

/-- The first word is defined: it passes every check (30_encoding.md R58). -/
def Fields.wellFormed (f : Fields) : Bool :=
  f.opcodeDefined && f.cmpRdZero && f.invRbZero && f.subOpcodeDefined

end Sys2Proof
end

