-- ==== Sys2Proof/Decode.lean ====
section
/-! DEFINITION. Decoding, total on any words and rejecting by name (30_encoding.md R50 to R61), and the encoder, written
from the same tables. -/

namespace Sys2Proof

/-- Why the decoder gives no instruction. -/
inductive DecodeError where
  /-- RRR opcode 0xE (30_encoding.md R61). -/
  | undefinedOpcode
  /-- RX sub-opcode 0x9 to 0xF (R61). -/
  | undefinedSubOpcode
  /-- `cmp` with a non-zero Rd nibble (R59). -/
  | cmpRdReserved
  /-- `inv` with a non-zero Rb nibble (R59). -/
  | invRbReserved
  /-- No first word was given. Never raised by a fetch, which always has one. -/
  | missingWord0
  /-- An RX first word was given without its displacement word. Never raised by a fetch. -/
  | missingWord1
  deriving DecidableEq, Repr

/-- The nibble `w[lo+3:lo]`. -/
def nibbleAt (w : Word) (lo : Nat) : Fin 16 := (w.extractLsb' lo 4).toFin

/-- The four nibbles of a first word, leftmost column most significant (30_encoding.md R53; the spec's decision D1, Log 17). -/
def fieldsOfWord (w0 : Word) : Fields :=
  { op := nibbleAt w0 12, d := nibbleAt w0 8, a := nibbleAt w0 4, b := nibbleAt w0 0 }

/-- The length in words is decided by the most significant nibble alone (30_encoding.md R50). -/
def formatOfWord (w0 : Word) : Format := if nibbleAt w0 12 = 0xF then .rx else .rrr

/-- The RRR opcode map (30_encoding.md R56; `div` at 3 by 90_conflicts.md C1, Log 24). -/
def decodeRRR (f : Fields) : Except DecodeError Instr :=
  match f.op.val with
  | 0x0 => .ok (.add f.d f.a f.b)
  | 0x1 => .ok (.sub f.d f.a f.b)
  | 0x2 => .ok (.mul f.d f.a f.b)
  | 0x3 => .ok (.div f.d f.a f.b)
  | 0x4 => if f.d = 0 then .ok (.cmp f.a f.b) else .error .cmpRdReserved
  | 0x5 => .ok (.cmplt f.d f.a f.b)
  | 0x6 => .ok (.cmpeq f.d f.a f.b)
  | 0x7 => .ok (.cmpgt f.d f.a f.b)
  | 0x8 => if f.b = 0 then .ok (.inv f.d f.a) else .error .invRbReserved
  | 0x9 => .ok (.and f.d f.a f.b)
  | 0xA => .ok (.or f.d f.a f.b)
  | 0xB => .ok (.xor f.d f.a f.b)
  | 0xC => .ok (.addc f.d f.a f.b)
  | 0xD => .ok (.trap f.d f.a f.b)
  | _ => .error .undefinedOpcode

/-- The RX sub-opcode map (30_encoding.md R57). -/
def decodeRX (f : Fields) (disp : Word) : Except DecodeError Instr :=
  match f.b.val with
  | 0x0 => .ok (.lea f.d f.a disp)
  | 0x1 => .ok (.load f.d f.a disp)
  | 0x2 => .ok (.store f.d f.a disp)
  | 0x3 => .ok (.jump f.d f.a disp)
  | 0x4 => .ok (.jumpc0 f.d f.a disp)
  | 0x5 => .ok (.jumpc1 f.d f.a disp)
  | 0x6 => .ok (.jumpf f.d f.a disp)
  | 0x7 => .ok (.jumpt f.d f.a disp)
  | 0x8 => .ok (.jal f.d f.a disp)
  | _ => .error .undefinedSubOpcode

/-- Decode with a first word and the words after it; an RX instruction takes the next word as its displacement
(20_memory.md R35), and an undefined RX word is refused without it (30_encoding.md R61). -/
def decodeWords (w0 : Word) (rest : List Word) : Except DecodeError (Instr × List Word) :=
  match formatOfWord w0, rest with
  | .rrr, rest => (decodeRRR (fieldsOfWord w0)).map fun i => (i, rest)
  | .rx, w1 :: rest => (decodeRX (fieldsOfWord w0) w1).map fun i => (i, rest)
  | .rx, [] => .error (if (fieldsOfWord w0).subOpcodeDefined then .missingWord1 else .undefinedSubOpcode)

/-- The decoder (30_encoding.md R58): the instruction at the head of a list of words, and the words after it. -/
def decode : List Word → Except DecodeError (Instr × List Word)
  | [] => .error .missingWord0
  | w0 :: rest => decodeWords w0 rest

/-- The first word with the given nibbles: `(op << 12) | (d << 8) | (a << 4) | b` (30_encoding.md R51, R52). -/
def packWord (f : Fields) : Word :=
  (BitVec.ofFin (w := 4) f.op ++ BitVec.ofFin (w := 4) f.d ++ BitVec.ofFin (w := 4) f.a ++ BitVec.ofFin (w := 4) f.b :
    BitVec (4 + 4 + 4 + 4))

/-- The nibbles of an instruction's first word (the patterns of 30_encoding.md R56 and R57). -/
def fieldsOf : Instr → Fields
  | .add d a b => ⟨0x0, d, a, b⟩
  | .sub d a b => ⟨0x1, d, a, b⟩
  | .mul d a b => ⟨0x2, d, a, b⟩
  | .div d a b => ⟨0x3, d, a, b⟩
  | .cmp a b => ⟨0x4, 0x0, a, b⟩
  | .cmplt d a b => ⟨0x5, d, a, b⟩
  | .cmpeq d a b => ⟨0x6, d, a, b⟩
  | .cmpgt d a b => ⟨0x7, d, a, b⟩
  | .inv d a => ⟨0x8, d, a, 0x0⟩
  | .and d a b => ⟨0x9, d, a, b⟩
  | .or d a b => ⟨0xA, d, a, b⟩
  | .xor d a b => ⟨0xB, d, a, b⟩
  | .addc d a b => ⟨0xC, d, a, b⟩
  | .trap d a b => ⟨0xD, d, a, b⟩
  | .lea d a _ => ⟨0xF, d, a, 0x0⟩
  | .load d a _ => ⟨0xF, d, a, 0x1⟩
  | .store d a _ => ⟨0xF, d, a, 0x2⟩
  | .jump d a _ => ⟨0xF, d, a, 0x3⟩
  | .jumpc0 k a _ => ⟨0xF, k, a, 0x4⟩
  | .jumpc1 k a _ => ⟨0xF, k, a, 0x5⟩
  | .jumpf d a _ => ⟨0xF, d, a, 0x6⟩
  | .jumpt d a _ => ⟨0xF, d, a, 0x7⟩
  | .jal d a _ => ⟨0xF, d, a, 0x8⟩

/-- The displacement word of an RX instruction; an RRR instruction has none (30_encoding.md R50, R54). -/
def displacementOf : Instr → Option Word
  | .add _ _ _ | .sub _ _ _ | .mul _ _ _ | .div _ _ _ | .cmp _ _ | .cmplt _ _ _ | .cmpeq _ _ _ | .cmpgt _ _ _
  | .inv _ _ | .and _ _ _ | .or _ _ _ | .xor _ _ _ | .addc _ _ _ | .trap _ _ _ => none
  | .lea _ _ disp | .load _ _ disp | .store _ _ disp | .jump _ _ disp | .jumpc0 _ _ disp | .jumpc1 _ _ disp
  | .jumpf _ _ disp | .jumpt _ _ disp | .jal _ _ disp => some disp

/-- The encoder: the one or two words of an instruction (30_encoding.md R51, R52). -/
def encode (i : Instr) : List Word := packWord (fieldsOf i) :: (displacementOf i).toList

/-- An instruction is well formed when its first word is a defined one (30_encoding.md R58). Its operand types already
ensure it (Sys2Proof.Laws.Encoding). -/
def wellFormedInstr (i : Instr) : Bool := (fieldsOf i).wellFormed

/-- The host's numbering of an instruction's bits: bit 0 is the least significant bit of the first word, and the second
word is bits 31 to 16. Bits from `nbits` up are zero. -/
def tableWords (nbits w : Nat) : List Word :=
  [BitVec.ofNat 16 (w % 2 ^ nbits), BitVec.ofNat 16 (w % 2 ^ nbits / 2 ^ 16)]

/-- The instruction the decoder reads from an instruction whose bits are `w`, numbered as spec/opcode_table.json numbers
them. -/
def decodeTableWord (nbits w : Nat) : Option Instr :=
  match decode (tableWords nbits w) with
  | .ok (i, _) => some i
  | .error _ => none

end Sys2Proof
end

