-- ==== Sys2Proof/Config.lean ====
section
/-! DEFINITION. What the launch fixes (the spec's RESET_PC, LOAD_ADDRESS, INIT_REGS, INIT_MEM) and the one family of free
values: the words the host supplies to the Read routine. -/

namespace Sys2Proof

/-- RESET_PC: the pc after reset (10_state.md R26; the spec's decision D20, Log 18). -/
def Config.resetPc : Word := 0x0000

/-- LOAD_ADDRESS: where the first word of the program image is placed (70 R171; the spec's decision D20, Log 18). -/
def Config.loadAddress : Word := 0x0000

/-- INIT_REGS: the value of R1 to R15 at reset. DESIGN CHOICE, unsafe: the spec leaves it open (R27, D21); Log 2. -/
def Config.initReg : Word := 0x0000

/-- INIT_MEM: what a word of memory that nothing has written reads as. DESIGN CHOICE, unsafe: the spec leaves it open
(R28, D21); Log 3. This is the one definition of what an unlisted address of memory holds. -/
def Config.unwrittenWord : Word := 0x0000

/-- The host's input sequence `h_0, h_1, ...` (43_trap.md R107, R111; D17): the word that answers the `n`-th draw of the
Read routine. A FREE VALUE: it has no body, so nothing can be proved of it but what holds for every sequence. Log 4. -/
opaque Config.hostInput : Nat → Word

end Sys2Proof
end

