-- ==== Sys2Proof/Machine/State.lean ====
section
/-! DEFINITION. The state of the machine (10_state.md R10), the reasons a step can stop, and the state after reset. -/

namespace Sys2Proof.Machine

/-- The reason recorded by `raise` (60_exceptions.md R153): the two model faults of the spec. -/
inductive FaultRecord where
  /-- IllegalInstruction: raised by a step that fetches an undefined first word; it holds the address of the word and the
  word (60 R151). -/
  | illegalInstruction (addr w0 : Word)
  /-- UnknownTrap: raised by `trap` with a routine number above 2; it holds the number and the address of the `trap` word
  (60 R152, 43 R109). -/
  | unknownTrap (code addr : Word)
  deriving DecidableEq, Repr

/-- Why a step gives no next state. The spec lets a machine that has halted or faulted take no further step; no
instruction ends here. -/
inductive Fault where
  /-- The machine has halted by Exit and takes no further step (10_state.md R22, 43_trap.md R106). Raised by `step` only.
  Safe: the spec gives no step. Log 6. -/
  | halted
  /-- A model fault was raised by an earlier step, with this record, and the machine takes no further step (60 R153).
  Raised by `step` only. Safe: the spec gives no step. Log 6. -/
  | faulted (record : FaultRecord)
  deriving DecidableEq, Repr

/-- The instruction has no meaning in the model. No instruction of this model is refused. -/
inductive Refusal where
  /-- Not modelled yet; raised by an arm of `exec` only. Safe: nothing can be proved of the instruction. No arm raises it. -/
  | notModelled (mnemonic : String)
  deriving DecidableEq, Repr

/-- One cell of memory: a word address and the 16-bit word it holds. The machine has no bytes (20_memory.md R31); Log 1. -/
abbrev Cell := Nat × Word

/-- Memory: the cells that do not hold `Config.unwrittenWord`, by strictly rising address (20_memory.md R30, R31; Log 1). -/
abbrev Memory := List Cell

/-- The state (10_state.md R10), and the two ends of the host interface that belong to the environment (43_trap.md R111). The
spec gives the machine nothing else: no mode, no interrupt, no control register (R23, R24; Log 28). -/
structure State where
  /-- R0 to R15, by number. The entry of R0 is never read: `State.readReg` gives 0 for it (10_state.md R11, R12). -/
  regs : Vector Word 16
  /-- The program counter (10_state.md R18). -/
  pc : Word
  /-- The 65536 words of memory (10_state.md R21). -/
  mem : Memory
  /-- The Exit routine was called (10_state.md R22). -/
  halted : Bool
  /-- The model fault that was raised, if any (10_state.md R22, 60 R153). -/
  fault : Option FaultRecord
  /-- The model's own field: how many words of the host's input the Read routine has drawn (43_trap.md R107; Log 4). -/
  inputPos : Nat
  /-- The host's output stream, oldest word first (43_trap.md R108, R111; Log 5). -/
  output : List Word
  deriving DecidableEq, Repr

/-- The machine right after reset, before the host places a program image (10_state.md R26 to R28, 70 R170). The registers'
value is `Config.initReg` (Log 2); memory lists nothing (Log 3). -/
def State.reset : State where
  regs := Vector.replicate 16 Config.initReg
  pc := Config.resetPc
  mem := []
  halted := false
  fault := none
  inputPos := 0
  output := []

/-- What a step or a meaning answers. -/
abbrev Result := Host.Outcome State Fault Refusal

end Sys2Proof.Machine
end

