-- ==== Sys2Proof/Machine/Ops.lean ====
section
/-! DEFINITION. The named operations over registers, memory, the pc and the host interface, fetching, and raising a model
fault: the one place where each is given its meaning (00_scope.md section 5.3). -/

namespace Sys2Proof.Machine

/-! ### Memory (20_memory.md R32) -/

/-- The word held at an address: that of the first cell with the address, else `Config.unwrittenWord`. -/
def Memory.read : Memory → Nat → Word
  | [], _ => Config.unwrittenWord
  | (k, v) :: m, a => if k = a then v else Memory.read m a

/-- Insert a cell before the first cell with a higher address. -/
def Memory.insert : Memory → Nat → Word → Memory
  | [], a, v => [(a, v)]
  | (k, w) :: m, a, v => if a < k then (a, v) :: (k, w) :: m else (k, w) :: Memory.insert m a v

/-- Drop the cells with an address. -/
def Memory.erase (m : Memory) (a : Nat) : Memory := m.filter fun c => c.1 ≠ a

/-- Replace the word at an address, keeping the canonical form: a word equal to `Config.unwrittenWord` is not listed. -/
def Memory.write (m : Memory) (a : Nat) (v : Word) : Memory :=
  if v = Config.unwrittenWord then Memory.erase m a else Memory.insert (Memory.erase m a) a v

/-- The canonical form: strictly rising addresses of the address space, and no cell equal to what an unlisted address
reads as. -/
abbrev Memory.wf (m : Memory) : Prop :=
  m.Pairwise (fun c c' => c.1 < c'.1) ∧ ∀ c ∈ m, c.1 < 65536 ∧ c.2 ≠ Config.unwrittenWord

/-- Write the words of a list to ascending addresses from `base`, wrapping modulo 2^16 (43_trap.md R107, 70 R171). -/
def Memory.writeBlock : Memory → Word → List Word → Memory
  | m, _, [] => m
  | m, base, w :: ws => Memory.writeBlock (Memory.write m base.toNat w) (base + 1) ws

/-- The `n` words at ascending addresses from `base`, wrapping modulo 2^16 (43_trap.md R108). -/
def Memory.readBlock : Memory → Word → Nat → List Word
  | _, _, 0 => []
  | m, base, n + 1 => Memory.read m base.toNat :: Memory.readBlock m (base + 1) n

/-- `MemRead(addr, 1)` (20_memory.md R32). -/
def State.readMem (s : State) (addr : Word) : Word := Memory.read s.mem addr.toNat

/-- `MemWrite(addr, 1, v)` (20_memory.md R32). -/
def State.writeMem (s : State) (addr v : Word) : State := { s with mem := Memory.write s.mem addr.toNat v }

/-! ### Registers (10_state.md R11, R12) -/

/-- `x[i]`: R0 reads 0 (10_state.md R12). -/
def State.readReg (s : State) (i : Reg) : Word := if i = 0 then 0 else s.regs[i]

/-- `x[i] <- v`: a write of R0 is discarded (10_state.md R12). -/
def State.writeReg (s : State) (i : Reg) (v : Word) : State :=
  { s with regs := if i = 0 then s.regs else s.regs.set i v }

/-! ### The program counter (10_state.md R18, R19) -/

/-- `pc <- target`. -/
def State.setPc (s : State) (target : Word) : State := { s with pc := target }

/-- `(pc + len) mod 2^16`, the next sequential address for an instruction of `len` words (10_state.md R19; Log 16). -/
def State.nextPc (s : State) (len : Word) : Word := s.pc + len

/-- `pc <- npc`. -/
def State.advance (s : State) (len : Word) : State := s.setPc (s.nextPc len)

/-! ### Taking a fault and ending the run

`raise` is the machine's only exception entry: no state is saved, no mode changes, the pc goes nowhere, no handler runs, and
there is no return (60_exceptions.md R153, R156, R157). -/

/-- `raise F(info)`: record the fault; the machine then takes no further step (60 R153; Log 7). -/
def State.raise (s : State) (record : FaultRecord) : State := { s with fault := some record }

/-- `halted <- true` (10_state.md R22, 43_trap.md R106). -/
def State.halt (s : State) : State := { s with halted := true }

/-! ### The host interface (43_trap.md R111) -/

/-- The next `n` words of the host's input sequence. -/
def State.inputWords (s : State) (n : Nat) : List Word := (List.range n).map fun i => Config.hostInput (s.inputPos + i)

/-- The host stores the next `n` input words to the buffer at `base` (43_trap.md R107). -/
def State.acceptInput (s : State) (base : Word) (n : Nat) : State :=
  { s with mem := Memory.writeBlock s.mem base (s.inputWords n), inputPos := s.inputPos + n }

/-- The `n` words of the buffer at `base` are appended to the output stream (43_trap.md R108). -/
def State.emitBlock (s : State) (base : Word) (n : Nat) : State :=
  { s with output := s.output ++ Memory.readBlock s.mem base n }

/-- The host places a program image before the first step (70_reset_and_hazards.md R171). -/
def State.loadImage (s : State) (img : List Word) : State :=
  { s with mem := Memory.writeBlock s.mem Config.loadAddress img }

/-- The machine at the start of a run: reset, with the program image placed (70_reset_and_hazards.md R170, R171). -/
def State.launch (img : List Word) : State := State.reset.loadImage img

/-! ### Fetching (10_state.md R20, steps 1 to 3) -/

/-- Step (3) of the cycle: whether an instruction with this first word takes a second word, which a defined RX word alone
does (10_state.md R20; 30_encoding.md R50, R61). -/
def takesSecondWord (w0 : Word) : Bool := formatOfWord w0 = .rx && (fieldsOfWord w0).wellFormed

/-- The words of the instruction at the pc: the second, from `(pc + 1) mod 2^16` (20_memory.md R35; Log 16), is fetched only
after the first was found to be a defined RX word, so that of an undefined RX word the second is not (30_encoding.md R61). -/
def State.fetchWords (s : State) : List Word :=
  if takesSecondWord (s.readMem s.pc) then [s.readMem s.pc, s.readMem (s.pc + 1)] else [s.readMem s.pc]

/-- Fetch and decode the instruction at the pc. -/
def State.fetchInstr (s : State) : Except DecodeError Instr :=
  match decode s.fetchWords with
  | .ok (i, _) => .ok i
  | .error e => .error e

/-- Place the words of one instruction where the next step fetches: the second only for the RX format. -/
def State.placeWords (s : State) (w0 w1 : Word) : State :=
  match formatOfWord w0 with
  | .rrr => s.writeMem s.pc w0
  | .rx => (s.writeMem s.pc w0).writeMem (s.pc + 1) w1

end Sys2Proof.Machine
end

