-- ==== Sys2Proof/Machine/Operands.lean ====
section
/-! DEFINITION. The operand forms: register contents are `State.readReg`; here the effective address, a bit of a word, and
the two ways an instruction ends (a result with the pc advanced, a branch). -/

namespace Sys2Proof.Machine

/-- `ea(disp, a) = (u(disp) + u(x[a])) mod 2^16`, the only addressing mode (20_memory.md R34; Log 15). -/
def State.ea (s : State) (disp : Word) (a : Reg) : Word :=
  BitVec.ofNat 16 ((unsigned disp + unsigned (s.readReg a)) % 65536)

/-- `ppcbit(w, i) = (w >> (15 - i)) & 1`: bit `i` in the source's numbering, 0 = most significant (00_scope.md R2). -/
def ppcBit (w : Word) (i : BitSel) : Word := (w >>> (15 - i.val)) &&& 1

/-- `x[d] <- v; pc <- npc` for an instruction of `len` words (10_state.md R19, R20). -/
def State.result (s : State) (d : Reg) (v len : Word) : State := (s.writeReg d v).advance len

/-- `if taken then pc <- target else pc <- npc`: the end of every RX jump (10_state.md R19; 45_jumps.md). -/
def State.branch (s : State) (taken : Bool) (target : Word) : State := if taken then s.setPc target else s.advance 2

/-- The word of a Boolean result, 0x0001 or 0x0000 (41_compare.md R86 to R88). -/
def boolWord (b : Bool) : Word := if b then 0x0001 else 0x0000

end Sys2Proof.Machine
end

