-- ==== Sys2Proof/Machine/Flags.lean ====
section
/-! DEFINITION. The eight flags of R15 and every flag computation (10_state.md R14 to R17, 40_arithmetic.md R70). -/

namespace Sys2Proof.Machine

/-- The named flags (10_state.md R14). -/
inductive Flag where
  /-- Unsigned greater than. -/
  | ccG
  /-- Signed greater than. -/
  | ccg
  /-- Equal to. -/
  | ccE
  /-- Signed less than. -/
  | ccl
  /-- Unsigned less than. -/
  | ccL
  /-- Unsigned overflow. -/
  | ccV
  /-- Signed overflow. -/
  | ccv
  /-- Carry propagation. -/
  | ccC
  deriving DecidableEq, Repr

/-- The source's bit number of a flag, 0 = most significant (10_state.md R14). -/
def flagBit : Flag → BitSel
  | .ccG => 0
  | .ccg => 1
  | .ccE => 2
  | .ccl => 3
  | .ccL => 4
  | .ccV => 5
  | .ccv => 6
  | .ccC => 7

/-- The mask of source bit `i`: `0x8000 >> i` (00_scope.md R2). -/
def ppcMask (i : BitSel) : Word := 0x8000 >>> i.val

/-- The mask of a flag in R15 (10_state.md R14). -/
def flagMask (f : Flag) : Word := ppcMask (flagBit f)

/-- `flag(F)`: the current value of a flag of R15 (00_scope.md section 5.3). -/
def State.flag (s : State) (f : Flag) : Bool := (s.readReg flagReg &&& flagMask f) ≠ 0

/-- A flag update as a list of flags and the values they take. -/
abbrev FlagUpdate := List (Flag × Bool)

/-- The masks of the flags an update names, joined. -/
def namedMask : FlagUpdate → Word
  | [] => 0
  | (f, _) :: fs => flagMask f ||| namedMask fs

/-- The masks of the flags an update sets to 1, joined. -/
def setMask : FlagUpdate → Word
  | [] => 0
  | (f, b) :: fs => (if b then flagMask f else 0) ||| setMask fs

/-- R15 with each named flag written 1 or 0 and every other bit kept (10_state.md R15; Log 8). -/
def mergeFlags (w : Word) (fs : FlagUpdate) : Word := (w &&& ~~~(namedMask fs)) ||| setMask fs

/-- `WriteFlags(d, fs)`: nothing when the instruction's destination is R15 (10_state.md R15, R16; Logs 8 and 9). -/
def State.writeFlags (s : State) (d : Reg) (fs : FlagUpdate) : State :=
  if d = flagReg then s else s.writeReg flagReg (mergeFlags (s.readReg flagReg) fs)

/-- An integer that does not fit in a signed word. -/
def outsideSigned (v : Int) : Bool := v < -32768 ∨ v > 32767

/-- The result word and the flags of an addition (40_arithmetic.md R70). -/
structure Sum where
  /-- The result word. -/
  r : Word
  /-- Unsigned overflow, ccV. -/
  V : Bool
  /-- Signed overflow, ccv. -/
  v : Bool
  /-- Carry propagation, ccC. -/
  C : Bool
  deriving DecidableEq, Repr

/-- `AddWithFlags(a, b, cin)`, shared by `add`, `sub` and `addc` (40_arithmetic.md R70; Log 29). -/
def addWithFlags (a b : Word) (cin : Bool) : Sum :=
  let usum : Nat := unsigned a + unsigned b + cin.toNat
  let ssum : Int := signed a + signed b + cin.toInt
  let carry : Bool := 65536 ≤ usum
  { r := low16 usum, V := carry, v := outsideSigned ssum, C := carry }

/-- The three flags of an addition (40_arithmetic.md R71, R72, R75). -/
def sumFlags (t : Sum) : FlagUpdate := [(.ccV, t.V), (.ccv, t.v), (.ccC, t.C)]

/-- The one flag of a multiplication whose exact product is `p` (40_arithmetic.md R73; Log 11). -/
def productFlags (p : Int) : FlagUpdate := [(.ccv, outsideSigned p)]

/-- The five flags of a comparison (41_compare.md R85). -/
def compareFlags (a b : Word) : FlagUpdate :=
  [(.ccG, unsigned a > unsigned b), (.ccg, signed a > signed b), (.ccE, a = b), (.ccl, signed a < signed b),
    (.ccL, unsigned a < unsigned b)]

end Sys2Proof.Machine
end

