-- ==== Sys2Proof/Machine/Arithmetic.lean ====
section
/-! DEFINITION. The meanings of `add`, `sub`, `mul`, `div`, `addc` (40_arithmetic.md). -/

namespace Sys2Proof.Machine

/-- The end of `add`, `sub` and `addc`: the result to Rd, the three flags to R15, the pc past one word. -/
def State.writeSum (s : State) (d : Reg) (t : Sum) : State := ((s.writeReg d t.r).writeFlags d (sumFlags t)).advance 1

/-- "the two's complement of Rb": `low16(-u(B))` (40_arithmetic.md R72; Log 10). -/
def twosComplement (w : Word) : Word := low16 (-(unsigned w : Int))

/-- `fdiv(n, m) = floor(n / m)` for `m != 0` (40_arithmetic.md R76). -/
def floorDiv (n m : Int) : Int := Int.fdiv n m

/-- `fmod(n, m) = n - m * fdiv(n, m)` (40_arithmetic.md R76). -/
def floorMod (n m : Int) : Int := n - m * floorDiv n m

/-- The end of `mul`, whose exact product is `p`: its low half to Rd, ccv to R15, the pc past one word (40_arithmetic.md R73). -/
def State.writeProduct (s : State) (d : Reg) (p : Int) : State :=
  ((s.writeReg d (low16 p)).writeFlags d (productFlags p)).advance 1

/-- The end of `div` of `A` by `B`: the remainder goes to R15 unless Rd is R15, which then holds the quotient; a zero divisor
writes nothing (40_arithmetic.md R74; Logs 12 and 26). -/
def State.writeQuotient (s : State) (d : Reg) (A B : Word) : State :=
  if B = 0 then s.advance 1
  else if d = flagReg then (s.writeReg flagReg (low16 (floorDiv (signed A) (signed B)))).advance 1
  else
    ((s.writeReg d (low16 (floorDiv (signed A) (signed B)))).writeReg flagReg
      (low16 (floorMod (signed A) (signed B)))).advance 1

/-- `add Rd,Ra,Rb` (40_arithmetic.md R71). -/
def execAdd (d a b : Reg) (s : State) : Result :=
  .next (s.writeSum d (addWithFlags (s.readReg a) (s.readReg b) false))

/-- `sub Rd,Ra,Rb` (40_arithmetic.md R72): the addition of the two's complement, flags included (Log 10). -/
def execSub (d a b : Reg) (s : State) : Result :=
  .next (s.writeSum d (addWithFlags (s.readReg a) (twosComplement (s.readReg b)) false))

/-- `addc Rd,Ra,Rb` (40_arithmetic.md R75): the carry in is ccC. -/
def execAddc (d a b : Reg) (s : State) : Result :=
  .next (s.writeSum d (addWithFlags (s.readReg a) (s.readReg b) (s.flag .ccC)))

/-- `mul Rd,Ra,Rb` (40_arithmetic.md R73): the exact product of the signed values. -/
def execMul (d a b : Reg) (s : State) : Result :=
  .next (s.writeProduct d (signed (s.readReg a) * signed (s.readReg b)))

/-- `div Rd,Ra,Rb` (40_arithmetic.md R74). -/
def execDiv (d a b : Reg) (s : State) : Result := .next (s.writeQuotient d (s.readReg a) (s.readReg b))

end Sys2Proof.Machine
end

