-- ==== Sys2Proof/Machine/Compare.lean ====
section
/-! DEFINITION. The meanings of `cmp`, `cmplt`, `cmpeq`, `cmpgt` (41_compare.md). -/

namespace Sys2Proof.Machine

/-- `cmp Ra,Rb` (41_compare.md R85): no destination competes for R15, so the flag update is always made. -/
def execCmp (a b : Reg) (s : State) : Result :=
  .next ((s.writeFlags 0 (compareFlags (s.readReg a) (s.readReg b))).advance 1)

/-- `cmplt Rd,Ra,Rb` (41_compare.md R86). -/
def execCmplt (d a b : Reg) (s : State) : Result :=
  .next (s.result d (boolWord (signed (s.readReg a) < signed (s.readReg b))) 1)

/-- `cmpeq Rd,Ra,Rb` (41_compare.md R87). -/
def execCmpeq (d a b : Reg) (s : State) : Result :=
  .next (s.result d (boolWord (s.readReg a = s.readReg b)) 1)

/-- `cmpgt Rd,Ra,Rb` (41_compare.md R88). -/
def execCmpgt (d a b : Reg) (s : State) : Result :=
  .next (s.result d (boolWord (signed (s.readReg a) > signed (s.readReg b))) 1)

end Sys2Proof.Machine
end

