-- ==== Sys2Proof/Machine/Jumps.lean ====
section
/-! DEFINITION. The meanings of `jump`, `jumpc0`, `jumpc1`, `jumpf`, `jumpt`, `jal` (45_jumps.md). Targets are absolute, the
transfer is immediate, and none writes a flag (R136). -/

namespace Sys2Proof.Machine

/-- `jump Rd,Displacement[Ra]` (45_jumps.md R130): the Rd nibble is neither read nor written (30_encoding.md R60; Log 25). -/
def execJump (_d a : Reg) (disp : Word) (s : State) : Result := .next (s.branch true (s.ea disp a))

/-- `jumpc0 k,Displacement[Ra]` (45_jumps.md R131). -/
def execJumpc0 (k : BitSel) (a : Reg) (disp : Word) (s : State) : Result :=
  .next (s.branch (ppcBit (s.readReg flagReg) k = 0) (s.ea disp a))

/-- `jumpc1 k,Displacement[Ra]` (45_jumps.md R132). -/
def execJumpc1 (k : BitSel) (a : Reg) (disp : Word) (s : State) : Result :=
  .next (s.branch (ppcBit (s.readReg flagReg) k = 1) (s.ea disp a))

/-- `jumpf Rd,Displacement[Ra]` (45_jumps.md R133). -/
def execJumpf (d a : Reg) (disp : Word) (s : State) : Result := .next (s.branch (s.readReg d = 0) (s.ea disp a))

/-- `jumpt Rd,Displacement[Ra]` (45_jumps.md R134). -/
def execJumpt (d a : Reg) (disp : Word) (s : State) : Result := .next (s.branch (s.readReg d ≠ 0) (s.ea disp a))

/-- `jal Rd,Displacement[Ra]` (45_jumps.md R135): the target is computed from the old Ra (Log 13). -/
def execJal (d a : Reg) (disp : Word) (s : State) : Result :=
  .next ((s.writeReg d (s.nextPc 2)).setPc (s.ea disp a))

end Sys2Proof.Machine
end

