-- ==== Sys2Proof/Machine/Logic.lean ====
section
/-! DEFINITION. The meanings of `inv`, `and`, `or`, `xor` (42_logic.md). None writes a flag. -/

namespace Sys2Proof.Machine

/-- `inv Rd,Ra` (42_logic.md R95). -/
def execInv (d a : Reg) (s : State) : Result := .next (s.result d (~~~(s.readReg a)) 1)

/-- `and Rd,Ra,Rb` (42_logic.md R96). -/
def execAnd (d a b : Reg) (s : State) : Result := .next (s.result d (s.readReg a &&& s.readReg b) 1)

/-- `or Rd,Ra,Rb` (42_logic.md R97). -/
def execOr (d a b : Reg) (s : State) : Result := .next (s.result d (s.readReg a ||| s.readReg b) 1)

/-- `xor Rd,Ra,Rb` (42_logic.md R98). -/
def execXor (d a b : Reg) (s : State) : Result := .next (s.result d (s.readReg a ^^^ s.readReg b) 1)

end Sys2Proof.Machine
end

