-- ==== Sys2Proof/Machine/MemoryAccess.lean ====
section
/-! DEFINITION. The meanings of `lea`, `load`, `store` (44_memory_access.md). None writes a flag, none can fault. -/

namespace Sys2Proof.Machine

/-- `lea Rd,Displacement[Ra]` (44_memory_access.md R120). -/
def execLea (d a : Reg) (disp : Word) (s : State) : Result := .next (s.result d (s.ea disp a) 2)

/-- `load Rd,Displacement[Ra]` (44_memory_access.md R121): that Rd receives the word is the spec's inference (Log 30). -/
def execLoad (d a : Reg) (disp : Word) (s : State) : Result := .next (s.result d (s.readMem (s.ea disp a)) 2)

/-- `store Rd,Displacement[Ra]` (44_memory_access.md R122): Rd is the source. -/
def execStore (d a : Reg) (disp : Word) (s : State) : Result :=
  .next ((s.writeMem (s.ea disp a) (s.readReg d)).advance 2)

end Sys2Proof.Machine
end

