-- ==== Sys2Proof/Machine/Trap.lean ====
section
/-! DEFINITION. The meaning of `trap` and the three service routines (43_trap.md). No routine writes a register or a flag
(R110; Log 14). -/

namespace Sys2Proof.Machine

/-- Routine 0, Exit: its arguments are ignored (43_trap.md R106; Log 27). -/
def routineExit (s : State) : State := s.halt

/-- Routine 1, Read: `size` words of the host's input go to the buffer at `addr` (43_trap.md R107; Log 21). -/
def routineRead (addr size : Word) (s : State) : State := s.acceptInput addr (unsigned size)

/-- Routine 2, Write: the `size` words of the buffer at `addr` go to the output (43_trap.md R108; Log 22). -/
def routineWrite (addr size : Word) (s : State) : State := s.emitBlock addr (unsigned size)

/-- The routine with number `code`; `trapAddr` is the address of the `trap` word, which the UnknownTrap record holds
(43_trap.md R105, R109; 60_exceptions.md R152; Log 20). -/
def callRoutine (code addr size trapAddr : Word) (s : State) : State :=
  if code = 0 then routineExit s
  else if code = 1 then routineRead addr size s
  else if code = 2 then routineWrite addr size s
  else s.raise (.unknownTrap code trapAddr)

/-- `trap Rd,Ra,Rb` (43_trap.md R105): the pc is advanced before the routine runs. -/
def execTrap (d a b : Reg) (s : State) : Result :=
  .next (callRoutine (s.readReg d) (s.readReg a) (s.readReg b) s.pc (s.advance 1))

end Sys2Proof.Machine
end

