-- ==== Sys2Proof/Machine/Dispatch.lean ====
section
/-! DEFINITION. Each instruction to its meaning (one arm per row of spec/opcode_table.json). -/

namespace Sys2Proof.Machine

def exec (i : Instr) (s : State) : Host.Outcome State Fault Refusal :=
  match i with
  | .add d a b => Sys2Proof.Machine.execAdd d a b s
  | .sub d a b => Sys2Proof.Machine.execSub d a b s
  | .mul d a b => Sys2Proof.Machine.execMul d a b s
  | .div d a b => Sys2Proof.Machine.execDiv d a b s
  | .cmp a b => Sys2Proof.Machine.execCmp a b s
  | .cmplt d a b => Sys2Proof.Machine.execCmplt d a b s
  | .cmpeq d a b => Sys2Proof.Machine.execCmpeq d a b s
  | .cmpgt d a b => Sys2Proof.Machine.execCmpgt d a b s
  | .inv d a => Sys2Proof.Machine.execInv d a s
  | .and d a b => Sys2Proof.Machine.execAnd d a b s
  | .or d a b => Sys2Proof.Machine.execOr d a b s
  | .xor d a b => Sys2Proof.Machine.execXor d a b s
  | .addc d a b => Sys2Proof.Machine.execAddc d a b s
  | .trap d a b => Sys2Proof.Machine.execTrap d a b s
  | .lea d a disp => Sys2Proof.Machine.execLea d a disp s
  | .load d a disp => Sys2Proof.Machine.execLoad d a disp s
  | .store d a disp => Sys2Proof.Machine.execStore d a disp s
  | .jump d a disp => Sys2Proof.Machine.execJump d a disp s
  | .jumpc0 k a disp => Sys2Proof.Machine.execJumpc0 k a disp s
  | .jumpc1 k a disp => Sys2Proof.Machine.execJumpc1 k a disp s
  | .jumpf d a disp => Sys2Proof.Machine.execJumpf d a disp s
  | .jumpt d a disp => Sys2Proof.Machine.execJumpt d a disp s
  | .jal d a disp => Sys2Proof.Machine.execJal d a disp s

end Sys2Proof.Machine
end

