-- ==== Sys2Proof/Machine/Step.lean ====
section
/-! DEFINITION. One step of the execution cycle (10_state.md R20), and the placing of one instruction where the next step
fetches. -/

namespace Sys2Proof.Machine

/-- One step (10_state.md R20): a halted or faulted machine takes none (R22, 60 R153; Log 6); an undefined first word raises
IllegalInstruction and changes nothing else (60 R151; Log 19); otherwise the decoded instruction is executed. -/
def step (s : State) : Host.Outcome State Fault Refusal :=
  if s.halted then .fault .halted
  else
    match s.fault with
    | some record => .fault (.faulted record)
    | none =>
      match s.fetchInstr with
      | .error _ => .next (s.raise (.illegalInstruction s.pc (s.readMem s.pc)))
      | .ok i => exec i s

/-- The state with the instruction of the given bits stored at the pc (70_reset_and_hazards.md R171 stands behind it: a
program is placed in memory from outside; Log 18). The second word is stored only for the RX format. -/
def State.withFetchWord (s : State) (nbits w : Nat) : State :=
  s.placeWords (BitVec.ofNat 16 (w % 2 ^ nbits)) (BitVec.ofNat 16 (w % 2 ^ nbits / 2 ^ 16))

end Sys2Proof.Machine
end

