-- ==== Sys2Proof/Safety.lean ====
section
/-! DEFINITION. The terms the statements use: running and ended states, the invariant of the machine, what two states share,
runs, and the rules' own tables (which registers an instruction may write, which relation a flag reports). -/

namespace Sys2Proof.Machine

/-! ### The ends of a run (10_state.md R22, 70_reset_and_hazards.md R173) -/

/-- The machine takes steps only in these states (10_state.md R20). -/
abbrev State.Running (s : State) : Prop := s.halted = false ∧ s.fault = none

/-- The run has ended by Exit: a final state (10_state.md R22). -/
abbrev State.Completed (s : State) : Prop := s.halted = true ∧ s.fault = none

/-- A model fault was raised: a terminal state that is not a final one (60_exceptions.md R153). -/
abbrev State.Faulted (s : State) : Prop := s.fault ≠ none

/-- The invariant of the machine: memory is in its canonical form within the address space, the entry of the hard-wired
R0 holds 0, and no state is both halted and faulted. -/
abbrev State.Inv (s : State) : Prop :=
  Memory.wf s.mem ∧ s.regs[(0 : Fin 16)] = 0 ∧ (s.halted = false ∨ s.fault = none)

/-- `t` is reached from `s` by zero or more steps. -/
inductive Reaches : State → State → Prop where
  | refl (s : State) : Reaches s s
  | tail {s t v : State} (h : Reaches s t) (hstep : step t = .next v) : Reaches s v

/-- A safe program image: no run of it raises a model fault (60 R153: every claim about a run takes this as a premise). -/
def SafeImage (img : List Word) : Prop := ∀ t, Reaches (State.launch img) t → ¬t.Faulted

/-! ### What two states share -/

/-- Every word of memory reads the same. -/
def SameMemory (s t : State) : Prop := ∀ addr : Word, t.readMem addr = s.readMem addr

/-- Every register, R15 included, reads the same. -/
def SameRegs (s t : State) : Prop := ∀ j : Reg, t.readReg j = s.readReg j

/-- The run goes on as before and the host has seen and given nothing: `halted`, `fault`, the input drawn and the output
are the same. -/
def SameHost (s t : State) : Prop :=
  t.halted = s.halted ∧ t.fault = s.fault ∧ t.inputPos = s.inputPos ∧ t.output = s.output

/-! ### The rules' tables, in the words of the rules -/

/-- The registers an instruction may write: Rd where it is a destination, and R15 where the instruction writes it
implicitly (10_state.md, table after R13). -/
def writtenRegs : Instr → List Reg
  | .add d _ _ | .sub d _ _ | .mul d _ _ | .div d _ _ | .addc d _ _ => [d, 15]
  | .cmp _ _ => [15]
  | .cmplt d _ _ | .cmpeq d _ _ | .cmpgt d _ _ | .inv d _ | .and d _ _ | .or d _ _ | .xor d _ _ => [d]
  | .lea d _ _ | .load d _ _ | .jal d _ _ => [d]
  | .trap _ _ _ | .store _ _ _ | .jump _ _ _ | .jumpc0 _ _ _ | .jumpc1 _ _ _ | .jumpf _ _ _ | .jumpt _ _ _ => []

/-- R15 after an addition of `A`, `B` and `cin`: ccV and ccC (0x0500) report the carry out, ccv (0x0200) that the operands
have one sign and the sum the other; every other bit is `old`'s (40_arithmetic.md R70, 10_state.md R15). -/
def sumFlagWord (old A B : Word) (cin : Bool) : Word :=
  (old &&& 0xF8FF) ||| (if 65536 ≤ A.toNat + B.toNat + cin.toNat then 0x0500 else 0)
    ||| (if A.msb = B.msb ∧ (A + B + BitVec.ofNat 16 cin.toNat).msb ≠ A.msb then 0x0200 else 0)

/-- R15 after a comparison of `A` with `B`: equality is ccE (0x2000); else ccG or ccL (0x8000, 0x0800) for the unsigned
order and ccg or ccl (0x4000, 0x1000) for the signed one; every other bit is `old`'s (41_compare.md R85). -/
def compareFlagWord (old A B : Word) : Word :=
  (old &&& 0x07FF) |||
    (if A = B then 0x2000 else (if B.ult A then 0x8000 else 0x0800) ||| (if B.slt A then 0x4000 else 0x1000))

/-- The relation of `A` to `B` that source bit `k` of R15 reports after `cmp`: greater unsigned, greater signed, equal,
less signed, less unsigned (10_state.md R14). -/
def flagRelation (k : Fin 5) (A B : Word) : Bool :=
  match k with
  | 0 => B.ult A
  | 1 => B.slt A
  | 2 => A == B
  | 3 => A.slt B
  | 4 => A.ult B

/-- The registers after an instruction whose destination is `d`, its value `v`, and which leaves R15 at `r15` when R15 is
not the destination: R0 reads 0, Rd the value, and every other register what it read before (10_state.md R12, R16). -/
def regsAfter (s : State) (d : Reg) (v r15 : Word) (j : Reg) : Word :=
  if j = 0 then 0 else if j = d then v else if j = 15 then r15 else s.readReg j

/-- The address `base + i` modulo 2^16 of the `i`-th word of a buffer (43_trap.md R107, R108). -/
def bufferAddr (base : Word) (i : Nat) : Word := base + BitVec.ofNat 16 i

/-- The index of an address in the buffer that starts at `base`; the address is in a buffer of `n` words when the index is
below `n`. -/
def bufferIndex (base addr : Word) : Nat := (addr - base).toNat

/-- The first word of an RRR or RX encoding from its four nibbles, written as a number (30_encoding.md R51, R52). -/
def nibbleWord (op d a b : Fin 16) : Word := BitVec.ofNat 16 (4096 * op.val + 256 * d.val + 16 * a.val + b.val)

end Sys2Proof.Machine
end

