-- ==== Sys2Proof/Certificates/Slice0/Obligations.lean ====
section
/-! DEFINITION. The statements for the provers, family by family. Each says what the instruction leaves in every register, in
every word of memory, in the pc and at the host interface, so each is also its own frame. -/

open Sys2Proof Sys2Proof.Machine

/-! ### Registers and flags (10_state.md) -/

/-- 10_state.md R12. R0 reads 0 in every state and a write of it changes nothing; and each of the fifteen instructions with
a destination, given R0 for it, does exactly what it does with another destination `d` (not R0, not R15, which takes part
in the flag update), but for the write of `d`. -/
def Obligations.RegisterZeroReadsZeroAndDropsOnlyTheWrite : Prop :=
  (∀ s : State, s.readReg 0 = 0) ∧ (∀ (s : State) (v : Word), s.writeReg 0 v = s) ∧
  ∀ (d a b : Reg) (disp : Word) (s : State), d ≠ 0 → d ≠ 15 →
    ∀ mk ∈ [fun r => Instr.add r a b, fun r => .sub r a b, fun r => .mul r a b, fun r => .div r a b, fun r => .addc r a b,
        fun r => .cmplt r a b, fun r => .cmpeq r a b, fun r => .cmpgt r a b, fun r => .inv r a, fun r => .and r a b,
        fun r => .or r a b, fun r => .xor r a b, fun r => .lea r a disp, fun r => .load r a disp, fun r => .jal r a disp],
      ∃ t, exec (mk d) s = .next t ∧ exec (mk 0) s = .next (t.writeReg d (s.readReg d))

/-- The sixteen registers are independent cells (10_state.md section 2): the last write of a register wins, writes of
different registers commute, and writing back what a register reads changes nothing. -/
def Obligations.RegisterWritesCommuteAndTheLastWins : Prop :=
  ∀ (s : State) (i j : Reg) (v v' : Word),
    (s.writeReg i v).writeReg i v' = s.writeReg i v' ∧
    (i ≠ j → (s.writeReg i v).writeReg j v' = (s.writeReg j v').writeReg i v) ∧
    s.writeReg i (s.readReg i) = s ∧ (i ≠ 0 → (s.writeReg i v).readReg i = v)

/-- 10_state.md R14: the eight flags are the bits of R15 with the masks of the table, a flag's value is its bit counted
from the most significant end, writing R15 as a general register writes the flags, and a flag update keeps the low byte. -/
def Obligations.FlagsAreTheNamedBitsOfR15 : Prop :=
  (flagMask .ccG = 0x8000 ∧ flagMask .ccg = 0x4000 ∧ flagMask .ccE = 0x2000 ∧ flagMask .ccl = 0x1000 ∧
    flagMask .ccL = 0x0800 ∧ flagMask .ccV = 0x0400 ∧ flagMask .ccv = 0x0200 ∧ flagMask .ccC = 0x0100) ∧
  (∀ (s : State) (f : Flag), s.flag f = (s.readReg 15).getMsbD (flagBit f).val) ∧
  (∀ (s : State) (f : Flag) (v : Word), (s.writeReg 15 v).flag f = v.getMsbD (flagBit f).val) ∧
  (∀ (s : State) (d : Reg) (fs : FlagUpdate),
    (s.writeFlags d fs).readReg 15 &&& 0x00FF = s.readReg 15 &&& 0x00FF)

/-- 10_state.md, table after R13, for every instruction: no register outside `writtenRegs` changes; for all but the
arithmetic instructions and `cmp` this says that R15 changes only as the explicit destination (R17). -/
def Obligations.OnlyTheTabledRegistersChange : Prop :=
  ∀ (i : Instr) (s t : State), exec i s = .next t → ∀ j : Reg, j ∉ writtenRegs i → t.readReg j = s.readReg j

/-! ### Arithmetic (40_arithmetic.md) -/

/-- The formulas of 40_arithmetic.md section 1 are the spec's reading (D8, Log 29): the sum is the 16-bit sum, ccC equals ccV, ccV is the carry out, and
ccv holds when the operands have one sign and the sum the other. -/
def Obligations.AddWithFlagsIsTheSixteenBitSum : Prop :=
  ∀ (A B : Word) (cin : Bool),
    let r := A + B + BitVec.ofNat 16 cin.toNat
    (addWithFlags A B cin).r = r ∧ (addWithFlags A B cin).C = (addWithFlags A B cin).V ∧
    ((addWithFlags A B cin).V = true ↔ 65536 ≤ A.toNat + B.toNat + cin.toNat) ∧
    ((addWithFlags A B cin).v = true ↔ A.msb = B.msb ∧ r.msb ≠ A.msb)

/-- `add`. That unnamed bits of R15 are kept (D5, Log 8), that the result wins in R15 (D6, Log 9) and the flag formulas
(D8, Log 29) are the spec's own decisions. -/
def Obligations.AddWritesSumAndFlags : Prop :=
  ∀ (d a b : Reg) (s : State), ∃ t, exec (.add d a b) s = .next t ∧ t.pc = s.pc + 1 ∧
    (∀ j, t.readReg j = regsAfter s d (s.readReg a + s.readReg b)
      (sumFlagWord (s.readReg 15) (s.readReg a) (s.readReg b) false) j) ∧
    SameMemory s t ∧ SameHost s t

/-- `addc`: the carry in is ccC of the old R15. Decisions D5, D6, D8 as for `add` (Logs 8, 9, 29). -/
def Obligations.AddcWritesSumWithCarryAndFlags : Prop :=
  ∀ (d a b : Reg) (s : State), ∃ t, exec (.addc d a b) s = .next t ∧ t.pc = s.pc + 1 ∧
    (∀ j, t.readReg j = regsAfter s d
      (s.readReg a + s.readReg b + BitVec.ofNat 16 ((s.readReg 15).getMsbD 7).toNat)
      (sumFlagWord (s.readReg 15) (s.readReg a) (s.readReg b) ((s.readReg 15).getMsbD 7)) j) ∧
    SameMemory s t ∧ SameHost s t

/-- `sub`: the result is the wrapped difference; its flags are those of adding the two's complement, so ccV and ccC mean
no borrow and are 0 for a zero subtrahend. The flag model is the spec's decision D7 (Log 10); D5 and D6 as for `add`. -/
def Obligations.SubWritesDifferenceAndNoBorrowFlags : Prop :=
  ∀ (d a b : Reg) (s : State), ∃ t, exec (.sub d a b) s = .next t ∧ t.pc = s.pc + 1 ∧
    (∀ j, t.readReg j = regsAfter s d (s.readReg a - s.readReg b)
      ((s.readReg 15 &&& 0xF8FF)
        ||| (if s.readReg b ≠ 0 ∧ (s.readReg b).toNat ≤ (s.readReg a).toNat then 0x0500 else 0)
        ||| (if (s.readReg a).msb = (-s.readReg b).msb ∧ (s.readReg a - s.readReg b).msb ≠ (s.readReg a).msb
          then 0x0200 else 0)) j) ∧
    SameMemory s t ∧ SameHost s t

/-- `mul`: the low half of the product; ccv holds when that half, read as signed, is not the product, and is cleared
otherwise (the clearing is the spec's decision D9, Log 11); D5 and D6 as for `add`. -/
def Obligations.MulWritesLowHalfAndOverflowFlag : Prop :=
  ∀ (d a b : Reg) (s : State), ∃ t, exec (.mul d a b) s = .next t ∧ t.pc = s.pc + 1 ∧
    (∀ j, t.readReg j = regsAfter s d (s.readReg a * s.readReg b)
      ((s.readReg 15 &&& 0xFDFF) |||
        (if (s.readReg a * s.readReg b).toInt ≠ (s.readReg a).toInt * (s.readReg b).toInt then 0x0200 else 0)) j) ∧
    SameMemory s t ∧ SameHost s t

/-- 40_arithmetic.md R76, whole: `floorDiv` is the floor of the quotient, `floorMod` its remainder; the remainder is 0 or
has the divisor's sign and is smaller in magnitude; when the signs differ and the division is inexact, the quotient is one
less than the truncated one; and the source's examples and the rule's table. -/
def Obligations.FloorDivisionIsTheFloorOfTheQuotient : Prop :=
  (∀ n m : Int, m ≠ 0 →
    (floorDiv n m = ⌊(n : ℚ) / (m : ℚ)⌋) ∧ floorMod n m = n - m * floorDiv n m ∧
    (floorMod n m = 0 ∨ (0 < floorMod n m ↔ 0 < m)) ∧ |floorMod n m| < |m| ∧
    ((n < 0 ↔ 0 < m) → n ≠ 0 → floorMod n m ≠ 0 → floorDiv n m = Int.tdiv n m - 1)) ∧
  floorDiv 10 4 = 2 ∧ floorDiv 10 (-4) = -3 ∧
  (floorDiv 7 2 = 3 ∧ floorMod 7 2 = 1) ∧ (floorDiv (-7) 2 = -4 ∧ floorMod (-7) 2 = 1) ∧
  (floorDiv 7 (-2) = -4 ∧ floorMod 7 (-2) = -1) ∧ (floorDiv (-7) (-2) = 3 ∧ floorMod (-7) (-2) = -1) ∧
  (∀ m : Int, m ≠ 0 → floorDiv 0 m = 0 ∧ floorMod 0 m = 0) ∧
  (Int.tdiv (-7) 2 = -3 ∧ Int.tmod (-7) 2 = -1)

/-- `div` by a non-zero divisor: the floor quotient to Rd and, unless Rd is R15, the remainder to the whole of R15. The
quotient word of -32768 / -1 is the spec's decision D10 (Log 12). -/
def Obligations.DivWritesFloorQuotientAndRemainder : Prop :=
  ∀ (d a b : Reg) (s : State), s.readReg b ≠ 0 →
    ∃ t, exec (.div d a b) s = .next t ∧ t.pc = s.pc + 1 ∧
      (∀ j, t.readReg j = regsAfter s d (BitVec.ofInt 16 ⌊((s.readReg a).toInt : ℚ) / ((s.readReg b).toInt : ℚ)⌋)
        (BitVec.ofInt 16 ((s.readReg a).toInt
          - (s.readReg b).toInt * ⌊((s.readReg a).toInt : ℚ) / ((s.readReg b).toInt : ℚ)⌋)) j) ∧
      SameMemory s t ∧ SameHost s t

/-- `div` by zero writes nothing and goes on; the advance of the pc is the spec's decision D11 (Log 26). -/
def Obligations.DivByZeroOnlyAdvances : Prop :=
  ∀ (d a b : Reg) (s : State), s.readReg b = 0 →
    ∃ t, exec (.div d a b) s = .next t ∧ t.pc = s.pc + 1 ∧ SameRegs s t ∧ SameMemory s t ∧ SameHost s t

/-- What a program may rely on after `div` with separate destinations: quotient times divisor plus remainder gives the
dividend back as a word (D10 included, Log 12), the remainder is smaller in magnitude than the divisor, and is 0 or has
its sign. -/
def Obligations.DivQuotientTimesDivisorPlusRemainder : Prop :=
  ∀ (d a b : Reg) (s : State), d ≠ 0 → d ≠ 15 → s.readReg b ≠ 0 →
    ∃ t, exec (.div d a b) s = .next t ∧
      t.readReg d * s.readReg b + t.readReg 15 = s.readReg a ∧
      |(t.readReg 15).toInt| < |(s.readReg b).toInt| ∧
      (t.readReg 15 = 0 ∨ (t.readReg 15).msb = (s.readReg b).msb)

/-- `add` of the low words and then `addc` of the high words adds 32-bit numbers: the carry passes through ccC. -/
def Obligations.AddThenAddcAddsThirtyTwoBits : Prop :=
  ∀ (dl al bl dh ah bh : Reg) (s : State), dl ≠ 0 → dl ≠ 15 → dh ≠ 0 → dh ≠ dl →
    ah ≠ dl → bh ≠ dl → ah ≠ 15 → bh ≠ 15 →
    ∃ t v, exec (.add dl al bl) s = .next t ∧ exec (.addc dh ah bh) t = .next v ∧
      v.readReg dh ++ v.readReg dl = (s.readReg ah ++ s.readReg al) + (s.readReg bh ++ s.readReg bl)

/-! ### Comparison (41_compare.md) -/

/-- `cmp` writes its five flags, each 1 or 0, and nothing else. That the other bits of R15 are kept is the spec's
decision D5 (Log 8). -/
def Obligations.CmpWritesItsFiveFlags : Prop :=
  ∀ (a b : Reg) (s : State), ∃ t, exec (.cmp a b) s = .next t ∧ t.pc = s.pc + 1 ∧
    (∀ j, t.readReg j = if j = 15 then compareFlagWord (s.readReg 15) (s.readReg a) (s.readReg b) else s.readReg j) ∧
    SameMemory s t ∧ SameHost s t

/-- 41_compare.md R86, R87, R88: the word, the Boolean and the frame of `cmplt`, `cmpeq`, `cmpgt`; no flag is written, R15
changes only as Rd. The rules write the words and the pc modulo 2^16 out themselves; the spec's reasons for the nibble order
and the wrap are decisions D1 and D4 (Logs 17 and 16). -/
def Obligations.CompareToRegisterWritesABoolean : Prop :=
  (∀ (d a b : Reg) (rest : List Word),
    decode (nibbleWord 0x5 d a b :: rest) = .ok (.cmplt d a b, rest) ∧
    decode (nibbleWord 0x6 d a b :: rest) = .ok (.cmpeq d a b, rest) ∧
    decode (nibbleWord 0x7 d a b :: rest) = .ok (.cmpgt d a b, rest)) ∧
  ∀ (d a b : Reg) (s : State),
    (∃ t, exec (.cmplt d a b) s = .next t ∧ t.pc = s.pc + 1 ∧
      (∀ j, t.readReg j = regsAfter s d (if (s.readReg a).slt (s.readReg b) then 1 else 0) (s.readReg 15) j) ∧
      SameMemory s t ∧ SameHost s t) ∧
    (∃ t, exec (.cmpeq d a b) s = .next t ∧ t.pc = s.pc + 1 ∧
      (∀ j, t.readReg j = regsAfter s d (if s.readReg a ^^^ s.readReg b = 0 then 1 else 0) (s.readReg 15) j) ∧
      SameMemory s t ∧ SameHost s t) ∧
    (∃ t, exec (.cmpgt d a b) s = .next t ∧ t.pc = s.pc + 1 ∧
      (∀ j, t.readReg j = regsAfter s d (if (s.readReg b).slt (s.readReg a) then 1 else 0) (s.readReg 15) j) ∧
      SameMemory s t ∧ SameHost s t)

/-- The branch idioms of 41_compare.md R85: after `cmp Ra,Rb`, `jumpc1 k` is taken exactly when the relation that bit `k`
reports holds of the values compared, and `jumpc0 k` exactly when it does not. -/
def Obligations.CompareThenBranchFollowsTheRelation : Prop :=
  ∀ (a b c : Reg) (disp : Word) (k : Fin 5) (s : State), ∃ t, exec (.cmp a b) s = .next t ∧
    (∃ v, exec (.jumpc1 (k.castLE (by decide)) c disp) t = .next v ∧
      v.pc = if flagRelation k (s.readReg a) (s.readReg b) then disp + t.readReg c else s.pc + 3) ∧
    (∃ v, exec (.jumpc0 (k.castLE (by decide)) c disp) t = .next v ∧
      v.pc = if flagRelation k (s.readReg a) (s.readReg b) then s.pc + 3 else disp + t.readReg c)

/-! ### Logic (42_logic.md) -/

/-- 42_logic.md section 2, `inv`: encoding, result and frame. That a non-zero Rb nibble is refused is the spec's decision D12
(Log 19). -/
def Obligations.InvComplementsEveryBit : Prop :=
  ∀ (d a : Reg) (s : State),
    (∀ rest, decode (nibbleWord 0x8 d a 0 :: rest) = .ok (.inv d a, rest)) ∧
    (∀ b rest, b ≠ 0 → decode (nibbleWord 0x8 d a b :: rest) = .error .invRbReserved) ∧
    ∃ t, exec (.inv d a) s = .next t ∧ t.pc = s.pc + 1 ∧
      (∀ j, t.readReg j = regsAfter s d (0xFFFF - s.readReg a) (s.readReg 15) j) ∧ SameMemory s t ∧ SameHost s t

/-- 42_logic.md R96, R97, R98: encoding, result bit by bit, and frame of `and`, `or`, `xor`; no flag is written. The rules
write the words and the pc modulo 2^16 out themselves; the spec's reasons for the nibble order and the wrap are decisions D1
and D4 (Logs 17 and 16). -/
def Obligations.LogicInstructionsActOnEveryBit : Prop :=
  (∀ (d a b : Reg) (rest : List Word),
    decode (nibbleWord 0x9 d a b :: rest) = .ok (.and d a b, rest) ∧
    decode (nibbleWord 0xA d a b :: rest) = .ok (.or d a b, rest) ∧
    decode (nibbleWord 0xB d a b :: rest) = .ok (.xor d a b, rest)) ∧
  ∀ (d a b : Reg) (s : State),
    (∃ t v, exec (.and d a b) s = .next t ∧ t.pc = s.pc + 1 ∧
      (∀ n < 16, v.getLsbD n = ((s.readReg a).getLsbD n && (s.readReg b).getLsbD n)) ∧
      (∀ j, t.readReg j = regsAfter s d v (s.readReg 15) j) ∧ SameMemory s t ∧ SameHost s t) ∧
    (∃ t v, exec (.or d a b) s = .next t ∧ t.pc = s.pc + 1 ∧
      (∀ n < 16, v.getLsbD n = ((s.readReg a).getLsbD n || (s.readReg b).getLsbD n)) ∧
      (∀ j, t.readReg j = regsAfter s d v (s.readReg 15) j) ∧ SameMemory s t ∧ SameHost s t) ∧
    (∃ t v, exec (.xor d a b) s = .next t ∧ t.pc = s.pc + 1 ∧
      (∀ n < 16, v.getLsbD n = ((s.readReg a).getLsbD n ^^ (s.readReg b).getLsbD n)) ∧
      (∀ j, t.readReg j = regsAfter s d v (s.readReg 15) j) ∧ SameMemory s t ∧ SameHost s t)

/-! ### Memory (20_memory.md, 44_memory_access.md) -/

/-- The words of memory are independent cells (20_memory.md sections 2 and 5): in canonical memory (Log 1) the last write of
an address wins, writes of different addresses commute, writing back what an address reads changes nothing, and a read
returns the word written. -/
def Obligations.MemoryWritesCommuteAndTheLastWins : Prop :=
  ∀ (s : State) (addr addr' v v' : Word), Memory.wf s.mem →
    (s.writeMem addr v).writeMem addr v' = s.writeMem addr v' ∧
    (addr ≠ addr' → (s.writeMem addr v).writeMem addr' v' = (s.writeMem addr' v').writeMem addr v) ∧
    s.writeMem addr (s.readMem addr) = s ∧ (s.writeMem addr v).readMem addr = v

/-- In canonical form, memories that read the same at every address are the same data (Log 1). -/
def Obligations.CanonicalMemoriesAreEqualWhenTheyReadEqual : Prop :=
  ∀ m m' : Memory, Memory.wf m → Memory.wf m' → (∀ a < 65536, Memory.read m a = Memory.read m' a) → m = m'

/-- 44_memory_access.md R120: `lea` writes the effective address, accesses no memory and writes no flag. The rule
writes the words, the wrap of the address and that of the pc out itself; the spec's reasons are decisions D1, D3 and D4
(Logs 17, 15, 16). -/
def Obligations.LeaWritesTheEffectiveAddress : Prop :=
  ∀ (d a : Reg) (disp : Word) (s : State),
    (∀ rest, decode (nibbleWord 0xF d a 0x0 :: disp :: rest) = .ok (.lea d a disp, rest)) ∧
    ∃ t, exec (.lea d a disp) s = .next t ∧ t.pc = s.pc + 2 ∧
      (∀ j, t.readReg j = regsAfter s d (disp + s.readReg a) (s.readReg 15) j) ∧ SameMemory s t ∧ SameHost s t

/-- `load`: the word at the effective address of the old Ra goes to Rd; that it goes to Rd is the spec's inference from the
heading ("the operand `Rd` of the heading and the name"; Log 30). -/
def Obligations.LoadWritesTheWordAtTheEffectiveAddress : Prop :=
  ∀ (d a : Reg) (disp : Word) (s : State), ∃ t, exec (.load d a disp) s = .next t ∧ t.pc = s.pc + 2 ∧
    (∀ j, t.readReg j = regsAfter s d (s.readMem (disp + s.readReg a)) (s.readReg 15) j) ∧
    SameMemory s t ∧ SameHost s t

/-- 44_memory_access.md R122: `store` replaces the word at the effective address by the content of Rd, and changes no other
word and no register, R15 included. Words and wraps as for `lea`. -/
def Obligations.StoreWritesRdAtTheEffectiveAddress : Prop :=
  ∀ (d a : Reg) (disp : Word) (s : State),
    (∀ rest, decode (nibbleWord 0xF d a 0x2 :: disp :: rest) = .ok (.store d a disp, rest)) ∧
    ∃ t, exec (.store d a disp) s = .next t ∧ t.pc = s.pc + 2 ∧ SameRegs s t ∧
      (∀ addr : Word, t.readMem addr = if addr = disp + s.readReg a then s.readReg d else s.readMem addr) ∧
      SameHost s t

/-- A `load` right after a `store` of the same address, through any index registers, returns the word stored. -/
def Obligations.StoreThenLoadReturnsTheWord : Prop :=
  ∀ (d a r c : Reg) (disp disp' : Word) (s : State), r ≠ 0 → disp' + s.readReg c = disp + s.readReg a →
    ∃ t v, exec (.store d a disp) s = .next t ∧ exec (.load r c disp') t = .next v ∧ v.readReg r = s.readReg d

/-- A stored word is what the next fetch of its address sees (20_memory.md section 4; the spec's decision D25, Log 23): a
`store` whose effective address is the next instruction's makes that word the first word fetched. -/
def Obligations.StoredWordIsFetchedNext : Prop :=
  ∀ (d a : Reg) (disp : Word) (s : State), disp + s.readReg a = s.pc + 2 →
    ∃ t, exec (.store d a disp) s = .next t ∧ t.fetchWords.head? = some (s.readReg d)

/-! ### Control transfer (45_jumps.md) -/

/-- 45_jumps.md R130: `jump` sets the pc to the effective address and changes nothing else, whatever its Rd nibble. Words
and wraps as for `lea`. -/
def Obligations.JumpOnlySetsThePc : Prop :=
  ∀ (d a : Reg) (disp : Word) (s : State),
    (∀ rest, decode (nibbleWord 0xF d a 0x3 :: disp :: rest) = .ok (.jump d a disp, rest)) ∧
    ∃ t, exec (.jump d a disp) s = .next t ∧ t.pc = disp + s.readReg a ∧
      SameRegs s t ∧ SameMemory s t ∧ SameHost s t

/-- 45_jumps.md R131 and R132: `jumpc0 k` and `jumpc1 k` test bit `k` of R15 counted from the most significant end; in every
state exactly one of them is taken; neither writes a register or a flag. Words and wraps as for `lea`. -/
def Obligations.JumpOnFlagBitCountsFromTheMostSignificantEnd : Prop :=
  ∀ (k a : Fin 16) (disp : Word) (s : State),
    (∀ rest, decode (nibbleWord 0xF k a 0x4 :: disp :: rest) = .ok (.jumpc0 k a disp, rest) ∧
      decode (nibbleWord 0xF k a 0x5 :: disp :: rest) = .ok (.jumpc1 k a disp, rest)) ∧
    (∃ t, exec (.jumpc0 k a disp) s = .next t ∧
      t.pc = (if (s.readReg 15).getMsbD k.val then s.pc + 2 else disp + s.readReg a) ∧
      SameRegs s t ∧ SameMemory s t ∧ SameHost s t) ∧
    (∃ t, exec (.jumpc1 k a disp) s = .next t ∧
      t.pc = (if (s.readReg 15).getMsbD k.val then disp + s.readReg a else s.pc + 2) ∧
      SameRegs s t ∧ SameMemory s t ∧ SameHost s t)

/-- 45_jumps.md R133 and R134: `jumpf` jumps when all 16 bits of Rd are 0, `jumpt` when some bit is 1; with R0, always and
never. Words and wraps as for `lea`. -/
def Obligations.JumpOnRegisterTestsAllSixteenBits : Prop :=
  ∀ (d a : Reg) (disp : Word) (s : State),
    (∀ rest, decode (nibbleWord 0xF d a 0x6 :: disp :: rest) = .ok (.jumpf d a disp, rest) ∧
      decode (nibbleWord 0xF d a 0x7 :: disp :: rest) = .ok (.jumpt d a disp, rest)) ∧
    (∃ t, exec (.jumpf d a disp) s = .next t ∧
      t.pc = (if ∃ n < 16, (s.readReg d).getLsbD n = true then s.pc + 2 else disp + s.readReg a) ∧
      SameRegs s t ∧ SameMemory s t ∧ SameHost s t) ∧
    (∃ t, exec (.jumpt d a disp) s = .next t ∧
      t.pc = (if ∃ n < 16, (s.readReg d).getLsbD n = true then disp + s.readReg a else s.pc + 2) ∧
      SameRegs s t ∧ SameMemory s t ∧ SameHost s t)

/-- `jal`: the address of the next instruction to Rd, and the pc to the effective address of the OLD Ra, also when Rd is Ra
(the order is the spec's decision D14, Log 13). -/
def Obligations.JalLinksAndJumpsThroughTheOldRegister : Prop :=
  ∀ (d a : Reg) (disp : Word) (s : State), ∃ t, exec (.jal d a disp) s = .next t ∧ t.pc = disp + s.readReg a ∧
    (∀ j, t.readReg j = regsAfter s d (s.pc + 2) (s.readReg 15) j) ∧ SameMemory s t ∧ SameHost s t

/-- A subroutine called by `jal Rn` returns by `jump R0,0[Rn]` to the instruction after the call (45_jumps.md R135, corner
cases), for every link register but R0. -/
def Obligations.JumpThroughTheLinkReturns : Prop :=
  ∀ (n a r : Reg) (disp : Word) (s : State), n ≠ 0 →
    ∃ t v, exec (.jal n a disp) s = .next t ∧ exec (.jump r n 0) t = .next v ∧ v.pc = s.pc + 2

/-! ### The service routines (43_trap.md) -/

/-- Exit: the run ends with the pc past the `trap`; the arguments and all else are untouched (D16, Log 27; D15, Log 14). -/
def Obligations.TrapExitHaltsAndChangesNothingElse : Prop :=
  ∀ (d a b : Reg) (s : State), s.readReg d = 0 →
    ∃ t, exec (.trap d a b) s = .next t ∧ t.halted = true ∧ t.pc = s.pc + 1 ∧ SameRegs s t ∧ SameMemory s t ∧
      t.fault = s.fault ∧ t.inputPos = s.inputPos ∧ t.output = s.output

/-- Read: the words of the buffer become the next words of the host's input, whatever they are, and no other word changes;
the buffer wraps at 0xFFFF (D17, Log 21). No register is written (D15, Log 14). Free values: `Config.hostInput` (Log 4). -/
def Obligations.TrapReadFillsExactlyTheBuffer : Prop :=
  ∀ (d a b : Reg) (s : State), s.readReg d = 1 →
    ∃ t, exec (.trap d a b) s = .next t ∧ t.pc = s.pc + 1 ∧ SameRegs s t ∧
      (∀ addr : Word, t.readMem addr =
        if bufferIndex (s.readReg a) addr < (s.readReg b).toNat
        then Config.hostInput (s.inputPos + bufferIndex (s.readReg a) addr) else s.readMem addr) ∧
      t.inputPos = s.inputPos + (s.readReg b).toNat ∧
      t.output = s.output ∧ t.halted = s.halted ∧ t.fault = s.fault

/-- Write: the words of the buffer, in ascending order and wrapping at 0xFFFF, are appended to the output; no register and
no word of memory changes (D18, Log 22; D15, Log 14). -/
def Obligations.TrapWriteAppendsTheBuffer : Prop :=
  ∀ (d a b : Reg) (s : State), s.readReg d = 2 →
    ∃ t, exec (.trap d a b) s = .next t ∧ t.pc = s.pc + 1 ∧ SameRegs s t ∧ SameMemory s t ∧
      t.output.length = s.output.length + (s.readReg b).toNat ∧
      (∀ n, n < s.output.length → t.output[n]? = s.output[n]?) ∧
      (∀ n, n < (s.readReg b).toNat →
        t.output[s.output.length + n]? = some (s.readMem (bufferAddr (s.readReg a) n))) ∧
      t.inputPos = s.inputPos ∧ t.halted = s.halted ∧ t.fault = s.fault

/-- Any other routine number raises UnknownTrap, with the pc already advanced and nothing else changed (D19, Log 20); the
whole 16-bit word is the number. -/
def Obligations.TrapUnknownRoutineRaisesUnknownTrap : Prop :=
  ∀ (d a b : Reg) (s : State), 2 < (s.readReg d).toNat →
    ∃ t, exec (.trap d a b) s = .next t ∧ t.fault = some (.unknownTrap (s.readReg d) s.pc) ∧ t.pc = s.pc + 1 ∧
      SameRegs s t ∧ SameMemory s t ∧ t.halted = s.halted ∧ t.inputPos = s.inputPos ∧ t.output = s.output

/-! ### The step (10_state.md R20, 60_exceptions.md, 70_reset_and_hazards.md) -/

/-- A running machine whose fetched words decode to an instruction steps as that instruction executes. -/
def Obligations.StepRunsTheDecodedInstruction : Prop :=
  ∀ (s : State) (i : Instr) (rest : List Word), s.Running → decode s.fetchWords = .ok (i, rest) → step s = exec i s

/-- The fetch takes word 0 at the pc and, for a defined RX word only, word 1 at the next address, 0x0000 after 0xFFFF (the
spec's decisions D2 and D4, Log 16); of an undefined RX word, 0xF in the top nibble and a sub-opcode above 8, the second word
is not fetched (D13, Log 19). -/
def Obligations.FetchTakesWordsAtThePcAndAfterIt : Prop :=
  ∀ s : State, s.fetchWords =
    if 0xF000 ≤ (s.readMem s.pc).toNat ∧ (s.readMem s.pc).toNat % 16 ≤ 8
    then [s.readMem s.pc, s.readMem (BitVec.ofNat 16 (s.pc.toNat + 1))]
    else [s.readMem s.pc]

/-- An undefined first word, or one with a non-zero reserved nibble, makes the step record IllegalInstruction with the pc
and the word, and change nothing else (the spec's decisions D12 and D13, Log 19). -/
def Obligations.StepOnIllegalWordOnlyRaises : Prop :=
  ∀ s : State, s.Running → (fieldsOfWord (s.readMem s.pc)).wellFormed = false →
    step s = .next { s with fault := some (.illegalInstruction s.pc (s.readMem s.pc)) }

/-- A halted machine and a faulted machine take no further step (the spec's own devices, D16 and D22; how a step that is
not taken is answered is the model's choice, Log 6). -/
def Obligations.HaltedOrFaultedMachineTakesNoStep : Prop :=
  ∀ s : State, ¬s.Running → ∃ f, step s = .fault f ∧ (s.halted = true → f = .halted) ∧
    ∀ record, s.halted = false → s.fault = some record → f = .faulted record

/-- Every running state has a next state: no instruction, word, operand or address stops the machine within a step. -/
def Obligations.EveryRunningStateHasANextState : Prop :=
  (∀ (i : Instr) (s : State), ∃ t, exec i s = .next t) ∧ ∀ s : State, s.Running → ∃ t, step s = .next t

/-- A run ends only by `trap` with routine number 0, or in a recorded fault by an illegal word or by `trap` with a number
above 2 (70_reset_and_hazards.md section 2; D16, Log 27). -/
def Obligations.RunEndsOnlyByExitOrFault : Prop :=
  ∀ s t : State, s.Running → step s = .next t →
    (t.halted = true → ∃ d a b, s.fetchInstr = .ok (.trap d a b) ∧ s.readReg d = 0) ∧
    (∀ code addr, t.fault = some (.unknownTrap code addr) →
      ∃ d a b, s.fetchInstr = .ok (.trap d a b) ∧ s.readReg d = code ∧ 2 < code.toNat ∧ addr = s.pc) ∧
    (∀ addr w0, t.fault = some (.illegalInstruction addr w0) →
      addr = s.pc ∧ w0 = s.readMem s.pc ∧ (fieldsOfWord w0).wellFormed = false)

/-- Only `trap` ends the run, raises a fault in execution, draws input or produces output. -/
def Obligations.OnlyTrapTouchesTheHost : Prop :=
  ∀ (i : Instr) (s t : State), (∀ d a b, i ≠ .trap d a b) → exec i s = .next t → SameHost s t

/-- Only `store` and the Read routine write memory. -/
def Obligations.OnlyStoreAndReadWriteMemory : Prop :=
  ∀ (i : Instr) (s t : State), (∀ d a disp, i ≠ .store d a disp) → (∀ d a b, i = .trap d a b → s.readReg d ≠ 1) →
    exec i s = .next t → SameMemory s t

/-- Every instruction but the six jumps leaves the pc at the next sequential address, one word on for RRR and two for RX
(the wrap is the spec's decision D4, Log 16). -/
def Obligations.OnlyJumpsLeaveTheSequence : Prop :=
  ∀ (i : Instr) (s t : State), exec i s = .next t →
    t.pc = s.pc + BitVec.ofNat 16 (encode i).length ∨
      ∃ (k a : Fin 16) (disp : Word),
        i ∈ [.jump k a disp, .jumpc0 k a disp, .jumpc1 k a disp, .jumpf k a disp, .jumpt k a disp, .jal k a disp] ∧
        t.pc = disp + s.readReg a

/-- The program cannot learn what it has written: with any words before the output stream, and the host's input sequence the
same (Log 4), a step does the same and appends the same. -/
def Obligations.OutputNeverFeedsBack : Prop :=
  ∀ (s : State) (earlier : List Word),
    match step s, step { s with output := earlier ++ s.output } with
    | .next t, .next t' => t' = { t with output := earlier ++ t.output }
    | .fault f, .fault f' => f' = f
    | _, _ => False

/-- Every step keeps the invariant, from every state that has it: canonical memory, the zero of R0's entry, and not both
halted and faulted. The canonical form of memory is the model's, not the spec's (Log 1, DESIGN CHOICE); that R0
contains 0 is the spec's (10_state.md section 2). -/
def Obligations.EveryStepKeepsTheInvariant : Prop :=
  ∀ s t : State, s.Inv → step s = .next t → t.Inv

/-- The invariant holds at reset. The canonical form of memory in it is the model's, not the spec's (Log 1, DESIGN CHOICE). -/
def Obligations.ResetHasTheInvariant : Prop := State.reset.Inv

/-- Reset: pc, `halted`, `fault` and output as the spec's decisions D16, D20 and D22 give them (Log 18); the zeros of the
registers and of memory are the model's choice where the spec is open (D21; Logs 2 and 3). -/
def Obligations.ResetStateIsAsDecided : Prop :=
  State.reset.pc = 0 ∧ State.reset.halted = false ∧ State.reset.fault = none ∧ State.reset.output = [] ∧
    (∀ j, State.reset.readReg j = 0) ∧ ∀ addr, State.reset.readMem addr = 0

/-- Loading: the image's words stand from address 0 on, the rest of memory is unwritten, and nothing else differs from
reset (the addresses are the spec's decision D20, Log 18). The model's own choices are the
zero elsewhere (Log 3) and, in the invariant, the canonical form of memory (Log 1, DESIGN CHOICE). The registers and the count
of words drawn are those of reset, whatever they are (Logs 2 and 4). -/
def Obligations.LaunchPlacesTheImage : Prop :=
  ∀ img : List Word, img.length ≤ 65536 →
    (∀ addr : Word, (State.launch img).readMem addr = img.getD addr.toNat 0) ∧
    (State.launch img).pc = 0 ∧ (State.launch img).Running ∧ SameRegs State.reset (State.launch img) ∧
    (State.launch img).output = [] ∧ (State.launch img).inputPos = State.reset.inputPos ∧ (State.launch img).Inv

/-! ### Encoding (30_encoding.md) -/

/-- Decoding the words of an instruction gives the instruction back, with every operand at every value, and leaves the
words after it. -/
def Obligations.DecodeOfEncodeIsTheInstruction : Prop :=
  ∀ (i : Instr) (rest : List Word), wellFormedInstr i = true → decode (encode i ++ rest) = .ok (i, rest)

/-- Every defined word has one meaning: words that decode are the encoding of what they decode to. -/
def Obligations.EncodeOfDecodeIsTheWords : Prop :=
  ∀ (ws rest : List Word) (i : Instr), decode ws = .ok (i, rest) → encode i ++ rest = ws

/-- The decoder accepts exactly the defined first words: not opcode 0xE, not sub-opcodes 9 to 0xF, and not a non-zero
reserved nibble of `cmp` or `inv` (the last is decision D12, the others D13; Log 19). -/
def Obligations.DecoderAcceptsExactlyTheDefinedWords : Prop :=
  ∀ (w0 w1 : Word) (rest : List Word),
    ((∃ i r, decode (w0 :: w1 :: rest) = .ok (i, r)) ↔ (fieldsOfWord w0).wellFormed = true) ∧
    (w0.toNat / 4096 = 0xE → decode (w0 :: rest) = .error .undefinedOpcode) ∧
    (w0.toNat / 4096 = 0xF → 9 ≤ w0.toNat % 16 → decode (w0 :: rest) = .error .undefinedSubOpcode) ∧
    (w0.toNat / 4096 = 0x4 → w0.toNat / 256 % 16 ≠ 0 → decode (w0 :: rest) = .error .cmpRdReserved) ∧
    (w0.toNat / 4096 = 0x8 → w0.toNat % 16 ≠ 0 → decode (w0 :: rest) = .error .invRbReserved)

/-- 30_encoding.md R50: the length is decided by the most significant nibble of word 0 alone, two words for 0xF and one for
every other value, and no instruction has another length. -/
def Obligations.LengthIsDecidedByTheTopNibble : Prop :=
  (∀ (w0 : Word) (ws rest : List Word) (i : Instr), decode (w0 :: ws) = .ok (i, rest) →
    if w0.toNat / 4096 = 0xF then ws = ws.take 1 ++ rest ∧ ws ≠ [] ∧ (encode i).length = 2
    else ws = rest ∧ (encode i).length = 1) ∧
  ∀ i : Instr, (encode i).length = 1 ∨ (encode i).length = 2

/-- Words of the spec's own decoding table (95_test_vectors.md section 2.12), the reserved and undefined ones included. -/
def Obligations.SampleWordsDecodeAsTabled : Prop :=
  decode [0x0123] = .ok (.add 1 2 3, []) ∧ decode [0x3312] = .ok (.div 3 1 2, []) ∧
  decode [0x4012] = .ok (.cmp 1 2, []) ∧ decode [0x4312] = .error .cmpRdReserved ∧
  decode [0x8310] = .ok (.inv 3 1, []) ∧ decode [0x8315] = .error .invRbReserved ∧
  decode [0xDFFF] = .ok (.trap 15 15 15, []) ∧ decode [0xE123] = .error .undefinedOpcode ∧
  decode [0xF121, 0x0005] = .ok (.load 1 2 5, []) ∧ decode [0xF7A4, 0x0050] = .ok (.jumpc0 7 10 0x50, []) ∧
  decode [0xFFF8, 0x0000] = .ok (.jal 15 15 0, []) ∧ decode [0xF009, 0x0000] = .error .undefinedSubOpcode
end

