-- ==== Sys2Proof/Laws/Decode.lean ====
section
/-! SUPPORT. The nibbles of a packed word, the packed word of nibbles, and what a successful decoding says. -/

namespace Sys2Proof.Laws

open Sys2Proof.Machine

theorem nibbleAt_val (w : Word) (lo : Nat) : (nibbleAt w lo).val = w.toNat / 2 ^ lo % 16 := by
  change (w.extractLsb' lo 4).toNat = _
  rw [BitVec.extractLsb'_toNat, Nat.shiftRight_eq_div_pow]

theorem packWord_toNat (f : Fields) : (packWord f).toNat = 4096 * f.op.val + 256 * f.d.val + 16 * f.a.val + f.b.val := by
  have append4 : ∀ {n : Nat} (x : BitVec n) (k : Fin 16), (x ++ BitVec.ofFin (w := 4) k).toNat = 16 * x.toNat + k.val := by
    intro n x k
    rw [BitVec.toNat_append, ← Nat.shiftLeft_add_eq_or_of_lt (by simp), Nat.shiftLeft_eq]
    simp [Nat.mul_comm]
  change ((BitVec.ofFin (w := 4) f.op ++ BitVec.ofFin (w := 4) f.d) ++ BitVec.ofFin (w := 4) f.a
    ++ BitVec.ofFin (w := 4) f.b).toNat = _
  rw [append4, append4, append4]
  simp
  omega

/-- The nibbles of a packed word are those packed. -/
theorem fieldsOfWord_packWord (f : Fields) : fieldsOfWord (packWord f) = f := by
  obtain ⟨op, d, a, b⟩ := f
  have h := packWord_toNat ⟨op, d, a, b⟩
  simp only [fieldsOfWord, Fields.mk.injEq]
  refine ⟨?_, ?_, ?_, ?_⟩ <;> apply Fin.ext <;> rw [nibbleAt_val, h] <;> simp <;> omega

/-- A word is packed from its nibbles. -/
theorem packWord_fieldsOfWord (w : Word) : packWord (fieldsOfWord w) = w := by
  apply BitVec.eq_of_toNat_eq
  have h := w.isLt
  rw [packWord_toNat]
  simp only [fieldsOfWord, nibbleAt_val]
  omega

/-- The word written as a number is the packed word. -/
theorem nibbleWord_eq (op d a b : Fin 16) : nibbleWord op d a b = packWord ⟨op, d, a, b⟩ := by
  apply BitVec.eq_of_toNat_eq
  rw [packWord_toNat, nibbleWord, BitVec.toNat_ofNat]
  simp
  omega

theorem formatOfWord_packWord (f : Fields) : formatOfWord (packWord f) = if f.op = 0xF then .rx else .rrr := by
  have h : nibbleAt (packWord f) 12 = f.op := congrArg Fields.op (fieldsOfWord_packWord f)
  rw [formatOfWord, h]

/-- The decoder on a one-word instruction. -/
theorem decode_rrr {f : Fields} (h : f.op ≠ 0xF) (rest : List Word) :
    decode (packWord f :: rest) = (decodeRRR f).map fun i => (i, rest) := by
  simp only [decode, decodeWords, formatOfWord_packWord, if_neg h, fieldsOfWord_packWord]

/-- The decoder on a two-word instruction. -/
theorem decode_rx {f : Fields} (h : f.op = 0xF) (w1 : Word) (rest : List Word) :
    decode (packWord f :: w1 :: rest) = (decodeRX f w1).map fun i => (i, rest) := by
  simp only [decode, decodeWords, formatOfWord_packWord, if_pos h, fieldsOfWord_packWord]

/-- An undefined RX word is refused whatever follows it, be it nothing (30_encoding.md R61). -/
theorem decode_rx_undefined {f : Fields} (h : f.op = 0xF) (h9 : ¬f.b ≤ 0x8) (rest : List Word) :
    decode (packWord f :: rest) = .error .undefinedSubOpcode := by
  cases rest with
  | nil =>
    simp only [decode, decodeWords, formatOfWord_packWord, if_pos h, fieldsOfWord_packWord, Fields.subOpcodeDefined]
    simp [h, h9]
  | cons w1 rest =>
    obtain ⟨op, d, a, b⟩ := f
    rw [decode_rx h]
    simp only at h9
    fin_cases b <;> first | rfl | exact absurd (by decide) h9

/-- Which first words take a second word, as numbers: the top nibble 0xF and a sub-opcode up to 8. -/
theorem takesSecondWord_iff (w : Word) : takesSecondWord w = true ↔ 0xF000 ≤ w.toNat ∧ w.toNat % 16 ≤ 8 := by
  have hw := w.isLt
  have hop : nibbleAt w 12 = 0xF ↔ 0xF000 ≤ w.toNat := by
    rw [Fin.ext_iff, nibbleAt_val]
    simp
    omega
  have hb : nibbleAt w 0 ≤ 0x8 ↔ w.toNat % 16 ≤ 8 := by
    rw [Fin.le_iff_val_le_val, nibbleAt_val]
    simp
  rw [← hop, ← hb]
  by_cases h : nibbleAt w 12 = 0xF <;>
    simp [takesSecondWord, formatOfWord, fieldsOfWord, Fields.wellFormed, Fields.opcodeDefined, Fields.cmpRdZero,
      Fields.invRbZero, Fields.subOpcodeDefined, h]

theorem map_ok {α β ε : Type} {x : Except ε α} {g : α → β} {v : β} (h : x.map g = .ok v) : ∃ u, x = .ok u ∧ g u = v := by
  cases x with
  | error e => cases h
  | ok u => exact ⟨u, rfl, Except.ok.inj h⟩

/-- What a successful decoding says: the words begin with a first word of one format, and its map gave the instruction. -/
theorem decode_ok {ws rest : List Word} {i : Instr} (h : decode ws = .ok (i, rest)) :
    ∃ w0 ws', ws = w0 :: ws' ∧
      ((formatOfWord w0 = .rrr ∧ decodeRRR (fieldsOfWord w0) = .ok i ∧ ws' = rest) ∨
        (formatOfWord w0 = .rx ∧ ∃ w1, decodeRX (fieldsOfWord w0) w1 = .ok i ∧ ws' = w1 :: rest)) := by
  cases ws with
  | nil => cases h
  | cons w0 ws' =>
    refine ⟨w0, ws', rfl, ?_⟩
    cases hf : formatOfWord w0 with
    | rrr =>
      simp only [decode, decodeWords, hf] at h
      obtain ⟨j, hj, e⟩ := map_ok h
      cases e
      exact .inl ⟨rfl, hj, rfl⟩
    | rx =>
      cases ws' with
      | nil => simp only [decode, decodeWords, hf] at h; cases h
      | cons w1 ws'' =>
        simp only [decode, decodeWords, hf] at h
        obtain ⟨j, hj, e⟩ := map_ok h
        cases e
        exact .inr ⟨rfl, w1, hj, rfl⟩

end Sys2Proof.Laws
end

