-- ==== Sys2Proof/Laws/State.lean ====
section
/-! SUPPORT. What each update leaves in each field of the state, one lemma a field, the updates of one field by rfl; and reading a register
or a word of memory through an update that leaves it alone. -/

namespace Sys2Proof.Laws

open Sys2Proof.Machine

@[simp] theorem nextPc_eq (s : State) (len : Word) : s.nextPc len = s.pc + len := rfl

/-! ### `State.writeReg` -/

@[simp] theorem writeReg_regs (s : State) (i : Reg) (v : Word) : (s.writeReg i v).regs = if i = 0 then s.regs else s.regs.set i v := rfl
@[simp] theorem writeReg_pc (s : State) (i : Reg) (v : Word) : (s.writeReg i v).pc = s.pc := rfl
@[simp] theorem writeReg_mem (s : State) (i : Reg) (v : Word) : (s.writeReg i v).mem = s.mem := rfl
@[simp] theorem writeReg_halted (s : State) (i : Reg) (v : Word) : (s.writeReg i v).halted = s.halted := rfl
@[simp] theorem writeReg_fault (s : State) (i : Reg) (v : Word) : (s.writeReg i v).fault = s.fault := rfl
@[simp] theorem writeReg_inputPos (s : State) (i : Reg) (v : Word) : (s.writeReg i v).inputPos = s.inputPos := rfl
@[simp] theorem writeReg_output (s : State) (i : Reg) (v : Word) : (s.writeReg i v).output = s.output := rfl
@[simp] theorem readMem_writeReg (s : State) (i : Reg) (v : Word) (other : Word) : (s.writeReg i v).readMem other = s.readMem other := rfl

/-! ### `State.writeMem` -/

@[simp] theorem writeMem_regs (s : State) (addr v : Word) : (s.writeMem addr v).regs = s.regs := rfl
@[simp] theorem writeMem_pc (s : State) (addr v : Word) : (s.writeMem addr v).pc = s.pc := rfl
@[simp] theorem writeMem_mem (s : State) (addr v : Word) : (s.writeMem addr v).mem = Memory.write s.mem addr.toNat v := rfl
@[simp] theorem writeMem_halted (s : State) (addr v : Word) : (s.writeMem addr v).halted = s.halted := rfl
@[simp] theorem writeMem_fault (s : State) (addr v : Word) : (s.writeMem addr v).fault = s.fault := rfl
@[simp] theorem writeMem_inputPos (s : State) (addr v : Word) : (s.writeMem addr v).inputPos = s.inputPos := rfl
@[simp] theorem writeMem_output (s : State) (addr v : Word) : (s.writeMem addr v).output = s.output := rfl
@[simp] theorem readReg_writeMem (s : State) (addr v : Word) (j : Reg) : (s.writeMem addr v).readReg j = s.readReg j := rfl

/-! ### `State.setPc` -/

@[simp] theorem setPc_regs (s : State) (target : Word) : (s.setPc target).regs = s.regs := rfl
@[simp] theorem setPc_pc (s : State) (target : Word) : (s.setPc target).pc = target := rfl
@[simp] theorem setPc_mem (s : State) (target : Word) : (s.setPc target).mem = s.mem := rfl
@[simp] theorem setPc_halted (s : State) (target : Word) : (s.setPc target).halted = s.halted := rfl
@[simp] theorem setPc_fault (s : State) (target : Word) : (s.setPc target).fault = s.fault := rfl
@[simp] theorem setPc_inputPos (s : State) (target : Word) : (s.setPc target).inputPos = s.inputPos := rfl
@[simp] theorem setPc_output (s : State) (target : Word) : (s.setPc target).output = s.output := rfl
@[simp] theorem readReg_setPc (s : State) (target : Word) (j : Reg) : (s.setPc target).readReg j = s.readReg j := rfl
@[simp] theorem readMem_setPc (s : State) (target : Word) (other : Word) : (s.setPc target).readMem other = s.readMem other := rfl

/-! ### `State.advance` -/

@[simp] theorem advance_regs (s : State) (len : Word) : (s.advance len).regs = s.regs := rfl
@[simp] theorem advance_pc (s : State) (len : Word) : (s.advance len).pc = s.pc + len := rfl
@[simp] theorem advance_mem (s : State) (len : Word) : (s.advance len).mem = s.mem := rfl
@[simp] theorem advance_halted (s : State) (len : Word) : (s.advance len).halted = s.halted := rfl
@[simp] theorem advance_fault (s : State) (len : Word) : (s.advance len).fault = s.fault := rfl
@[simp] theorem advance_inputPos (s : State) (len : Word) : (s.advance len).inputPos = s.inputPos := rfl
@[simp] theorem advance_output (s : State) (len : Word) : (s.advance len).output = s.output := rfl
@[simp] theorem readReg_advance (s : State) (len : Word) (j : Reg) : (s.advance len).readReg j = s.readReg j := rfl
@[simp] theorem readMem_advance (s : State) (len : Word) (other : Word) : (s.advance len).readMem other = s.readMem other := rfl

/-! ### `State.raise` -/

@[simp] theorem raise_regs (s : State) (r : FaultRecord) : (s.raise r).regs = s.regs := rfl
@[simp] theorem raise_pc (s : State) (r : FaultRecord) : (s.raise r).pc = s.pc := rfl
@[simp] theorem raise_mem (s : State) (r : FaultRecord) : (s.raise r).mem = s.mem := rfl
@[simp] theorem raise_halted (s : State) (r : FaultRecord) : (s.raise r).halted = s.halted := rfl
@[simp] theorem raise_fault (s : State) (r : FaultRecord) : (s.raise r).fault = some r := rfl
@[simp] theorem raise_inputPos (s : State) (r : FaultRecord) : (s.raise r).inputPos = s.inputPos := rfl
@[simp] theorem raise_output (s : State) (r : FaultRecord) : (s.raise r).output = s.output := rfl
@[simp] theorem readReg_raise (s : State) (r : FaultRecord) (j : Reg) : (s.raise r).readReg j = s.readReg j := rfl
@[simp] theorem readMem_raise (s : State) (r : FaultRecord) (other : Word) : (s.raise r).readMem other = s.readMem other := rfl

/-! ### `State.halt` -/

@[simp] theorem halt_regs (s : State) : (s.halt).regs = s.regs := rfl
@[simp] theorem halt_pc (s : State) : (s.halt).pc = s.pc := rfl
@[simp] theorem halt_mem (s : State) : (s.halt).mem = s.mem := rfl
@[simp] theorem halt_halted (s : State) : (s.halt).halted = true := rfl
@[simp] theorem halt_fault (s : State) : (s.halt).fault = s.fault := rfl
@[simp] theorem halt_inputPos (s : State) : (s.halt).inputPos = s.inputPos := rfl
@[simp] theorem halt_output (s : State) : (s.halt).output = s.output := rfl
@[simp] theorem readReg_halt (s : State) (j : Reg) : (s.halt).readReg j = s.readReg j := rfl
@[simp] theorem readMem_halt (s : State) (other : Word) : (s.halt).readMem other = s.readMem other := rfl

/-! ### `State.acceptInput` -/

@[simp] theorem acceptInput_regs (s : State) (base : Word) (n : Nat) : (s.acceptInput base n).regs = s.regs := rfl
@[simp] theorem acceptInput_pc (s : State) (base : Word) (n : Nat) : (s.acceptInput base n).pc = s.pc := rfl
@[simp] theorem acceptInput_mem (s : State) (base : Word) (n : Nat) : (s.acceptInput base n).mem = Memory.writeBlock s.mem base (s.inputWords n) := rfl
@[simp] theorem acceptInput_halted (s : State) (base : Word) (n : Nat) : (s.acceptInput base n).halted = s.halted := rfl
@[simp] theorem acceptInput_fault (s : State) (base : Word) (n : Nat) : (s.acceptInput base n).fault = s.fault := rfl
@[simp] theorem acceptInput_inputPos (s : State) (base : Word) (n : Nat) : (s.acceptInput base n).inputPos = s.inputPos + n := rfl
@[simp] theorem acceptInput_output (s : State) (base : Word) (n : Nat) : (s.acceptInput base n).output = s.output := rfl
@[simp] theorem readReg_acceptInput (s : State) (base : Word) (n : Nat) (j : Reg) : (s.acceptInput base n).readReg j = s.readReg j := rfl

/-! ### `State.emitBlock` -/

@[simp] theorem emitBlock_regs (s : State) (base : Word) (n : Nat) : (s.emitBlock base n).regs = s.regs := rfl
@[simp] theorem emitBlock_pc (s : State) (base : Word) (n : Nat) : (s.emitBlock base n).pc = s.pc := rfl
@[simp] theorem emitBlock_mem (s : State) (base : Word) (n : Nat) : (s.emitBlock base n).mem = s.mem := rfl
@[simp] theorem emitBlock_halted (s : State) (base : Word) (n : Nat) : (s.emitBlock base n).halted = s.halted := rfl
@[simp] theorem emitBlock_fault (s : State) (base : Word) (n : Nat) : (s.emitBlock base n).fault = s.fault := rfl
@[simp] theorem emitBlock_inputPos (s : State) (base : Word) (n : Nat) : (s.emitBlock base n).inputPos = s.inputPos := rfl
@[simp] theorem emitBlock_output (s : State) (base : Word) (n : Nat) : (s.emitBlock base n).output = s.output ++ Memory.readBlock s.mem base n := rfl
@[simp] theorem readReg_emitBlock (s : State) (base : Word) (n : Nat) (j : Reg) : (s.emitBlock base n).readReg j = s.readReg j := rfl
@[simp] theorem readMem_emitBlock (s : State) (base : Word) (n : Nat) (other : Word) : (s.emitBlock base n).readMem other = s.readMem other := rfl

/-! ### `State.loadImage` -/

@[simp] theorem loadImage_regs (s : State) (img : List Word) : (s.loadImage img).regs = s.regs := rfl
@[simp] theorem loadImage_pc (s : State) (img : List Word) : (s.loadImage img).pc = s.pc := rfl
@[simp] theorem loadImage_mem (s : State) (img : List Word) : (s.loadImage img).mem = Memory.writeBlock s.mem Config.loadAddress img := rfl
@[simp] theorem loadImage_halted (s : State) (img : List Word) : (s.loadImage img).halted = s.halted := rfl
@[simp] theorem loadImage_fault (s : State) (img : List Word) : (s.loadImage img).fault = s.fault := rfl
@[simp] theorem loadImage_inputPos (s : State) (img : List Word) : (s.loadImage img).inputPos = s.inputPos := rfl
@[simp] theorem loadImage_output (s : State) (img : List Word) : (s.loadImage img).output = s.output := rfl
@[simp] theorem readReg_loadImage (s : State) (img : List Word) (j : Reg) : (s.loadImage img).readReg j = s.readReg j := rfl

/-! ### `State.writeFlags`, `State.branch`: both sides of their test -/

@[simp] theorem writeFlags_pc (s : State) (d : Reg) (fs : FlagUpdate) : (s.writeFlags d fs).pc = s.pc := by
  unfold State.writeFlags; split <;> rfl
@[simp] theorem writeFlags_mem (s : State) (d : Reg) (fs : FlagUpdate) : (s.writeFlags d fs).mem = s.mem := by
  unfold State.writeFlags; split <;> rfl
@[simp] theorem writeFlags_halted (s : State) (d : Reg) (fs : FlagUpdate) : (s.writeFlags d fs).halted = s.halted := by
  unfold State.writeFlags; split <;> rfl
@[simp] theorem writeFlags_fault (s : State) (d : Reg) (fs : FlagUpdate) : (s.writeFlags d fs).fault = s.fault := by
  unfold State.writeFlags; split <;> rfl
@[simp] theorem writeFlags_inputPos (s : State) (d : Reg) (fs : FlagUpdate) : (s.writeFlags d fs).inputPos = s.inputPos := by
  unfold State.writeFlags; split <;> rfl
@[simp] theorem writeFlags_output (s : State) (d : Reg) (fs : FlagUpdate) : (s.writeFlags d fs).output = s.output := by
  unfold State.writeFlags; split <;> rfl
@[simp] theorem readMem_writeFlags (s : State) (d : Reg) (fs : FlagUpdate) (other : Word) :
    (s.writeFlags d fs).readMem other = s.readMem other := by
  unfold State.writeFlags; split <;> rfl

@[simp] theorem branch_regs (s : State) (c : Bool) (target : Word) : (s.branch c target).regs = s.regs := by
  cases c <;> rfl
@[simp] theorem branch_mem (s : State) (c : Bool) (target : Word) : (s.branch c target).mem = s.mem := by
  cases c <;> rfl
@[simp] theorem branch_halted (s : State) (c : Bool) (target : Word) : (s.branch c target).halted = s.halted := by
  cases c <;> rfl
@[simp] theorem branch_fault (s : State) (c : Bool) (target : Word) : (s.branch c target).fault = s.fault := by
  cases c <;> rfl
@[simp] theorem branch_inputPos (s : State) (c : Bool) (target : Word) : (s.branch c target).inputPos = s.inputPos := by
  cases c <;> rfl
@[simp] theorem branch_output (s : State) (c : Bool) (target : Word) : (s.branch c target).output = s.output := by
  cases c <;> rfl
@[simp] theorem branch_pc (s : State) (c : Bool) (target : Word) :
    (s.branch c target).pc = if c then target else s.pc + 2 := by
  cases c <;> rfl
@[simp] theorem readReg_branch (s : State) (c : Bool) (target : Word) (j : Reg) :
    (s.branch c target).readReg j = s.readReg j := by
  cases c <;> rfl
@[simp] theorem readMem_branch (s : State) (c : Bool) (target other : Word) :
    (s.branch c target).readMem other = s.readMem other := by
  cases c <;> rfl

/-! ### `State.writeSum`: the end of an instruction with one result -/

@[simp] theorem writeSum_pc (s : State) (d : Reg) (t : Sum) : (s.writeSum d t).pc = s.pc + 1 := by
  simp [State.writeSum]
@[simp] theorem writeSum_mem (s : State) (d : Reg) (t : Sum) : (s.writeSum d t).mem = s.mem := by
  simp [State.writeSum]
@[simp] theorem writeSum_halted (s : State) (d : Reg) (t : Sum) : (s.writeSum d t).halted = s.halted := by
  simp [State.writeSum]
@[simp] theorem writeSum_fault (s : State) (d : Reg) (t : Sum) : (s.writeSum d t).fault = s.fault := by
  simp [State.writeSum]
@[simp] theorem writeSum_inputPos (s : State) (d : Reg) (t : Sum) : (s.writeSum d t).inputPos = s.inputPos := by
  simp [State.writeSum]
@[simp] theorem writeSum_output (s : State) (d : Reg) (t : Sum) : (s.writeSum d t).output = s.output := by
  simp [State.writeSum]
@[simp] theorem readMem_writeSum (s : State) (d : Reg) (t : Sum) (other : Word) : (s.writeSum d t).readMem other = s.readMem other := by
  simp [State.writeSum]

/-! ### `State.writeProduct`: the end of an instruction with one result -/

@[simp] theorem writeProduct_pc (s : State) (d : Reg) (p : Int) : (s.writeProduct d p).pc = s.pc + 1 := by
  simp [State.writeProduct]
@[simp] theorem writeProduct_mem (s : State) (d : Reg) (p : Int) : (s.writeProduct d p).mem = s.mem := by
  simp [State.writeProduct]
@[simp] theorem writeProduct_halted (s : State) (d : Reg) (p : Int) : (s.writeProduct d p).halted = s.halted := by
  simp [State.writeProduct]
@[simp] theorem writeProduct_fault (s : State) (d : Reg) (p : Int) : (s.writeProduct d p).fault = s.fault := by
  simp [State.writeProduct]
@[simp] theorem writeProduct_inputPos (s : State) (d : Reg) (p : Int) : (s.writeProduct d p).inputPos = s.inputPos := by
  simp [State.writeProduct]
@[simp] theorem writeProduct_output (s : State) (d : Reg) (p : Int) : (s.writeProduct d p).output = s.output := by
  simp [State.writeProduct]
@[simp] theorem readMem_writeProduct (s : State) (d : Reg) (p : Int) (other : Word) : (s.writeProduct d p).readMem other = s.readMem other := by
  simp [State.writeProduct]

/-! ### `State.result`: the end of an instruction with one result -/

@[simp] theorem result_pc (s : State) (d : Reg) (v len : Word) : (s.result d v len).pc = s.pc + len := rfl
@[simp] theorem result_mem (s : State) (d : Reg) (v len : Word) : (s.result d v len).mem = s.mem := rfl
@[simp] theorem result_halted (s : State) (d : Reg) (v len : Word) : (s.result d v len).halted = s.halted := rfl
@[simp] theorem result_fault (s : State) (d : Reg) (v len : Word) : (s.result d v len).fault = s.fault := rfl
@[simp] theorem result_inputPos (s : State) (d : Reg) (v len : Word) : (s.result d v len).inputPos = s.inputPos := rfl
@[simp] theorem result_output (s : State) (d : Reg) (v len : Word) : (s.result d v len).output = s.output := rfl
@[simp] theorem readMem_result (s : State) (d : Reg) (v len : Word) (other : Word) : (s.result d v len).readMem other = s.readMem other := rfl

/-! ### `State.writeQuotient`: the end of an instruction with one result -/

@[simp] theorem writeQuotient_pc (s : State) (d : Reg) (A B : Word) : (s.writeQuotient d A B).pc = s.pc + 1 := by
  unfold State.writeQuotient; split_ifs <;> rfl
@[simp] theorem writeQuotient_mem (s : State) (d : Reg) (A B : Word) : (s.writeQuotient d A B).mem = s.mem := by
  unfold State.writeQuotient; split_ifs <;> rfl
@[simp] theorem writeQuotient_halted (s : State) (d : Reg) (A B : Word) : (s.writeQuotient d A B).halted = s.halted := by
  unfold State.writeQuotient; split_ifs <;> rfl
@[simp] theorem writeQuotient_fault (s : State) (d : Reg) (A B : Word) : (s.writeQuotient d A B).fault = s.fault := by
  unfold State.writeQuotient; split_ifs <;> rfl
@[simp] theorem writeQuotient_inputPos (s : State) (d : Reg) (A B : Word) : (s.writeQuotient d A B).inputPos = s.inputPos := by
  unfold State.writeQuotient; split_ifs <;> rfl
@[simp] theorem writeQuotient_output (s : State) (d : Reg) (A B : Word) : (s.writeQuotient d A B).output = s.output := by
  unfold State.writeQuotient; split_ifs <;> rfl
@[simp] theorem readMem_writeQuotient (s : State) (d : Reg) (A B : Word) (other : Word) : (s.writeQuotient d A B).readMem other = s.readMem other := by
  unfold State.writeQuotient; split_ifs <;> rfl

end Sys2Proof.Laws
end

