-- ==== Sys2Proof/Laws/Registers.lean ====
section
/-! SUPPORT. Register reads after register writes, R0 and R15 included; and what the ends of an instruction leave there. -/

namespace Sys2Proof.Laws

open Sys2Proof.Machine

@[simp] theorem readReg_zero (s : State) : s.readReg 0 = 0 := rfl

@[simp] theorem writeReg_zero (s : State) (v : Word) : s.writeReg 0 v = s := rfl

/-- Reading any register after writing any. -/
theorem readReg_writeReg (s : State) (i j : Reg) (v : Word) :
    (s.writeReg i v).readReg j = if j = 0 then 0 else if j = i then v else s.readReg j := by
  by_cases hj : j = 0
  · simp [hj]
  · by_cases hi : i = 0
    · subst hi; simp [hj]
    · by_cases hij : j = i
      · subst hij; simp [State.readReg, State.writeReg, hj]
      · have : ¬(i : Fin 16).val = j.val := fun e => hij (Fin.ext e.symm)
        simp [State.readReg, State.writeReg, hj, hi, hij, this]

/-- R15 after a flag update, and every other register as it was. -/
theorem readReg_writeFlags (s : State) (d j : Reg) (fs : FlagUpdate) :
    (s.writeFlags d fs).readReg j =
      if j = 15 ∧ d ≠ 15 then mergeFlags (s.readReg 15) fs else s.readReg j := by
  unfold State.writeFlags
  by_cases hd : d = flagReg
  · simp [hd]
  · by_cases hj : j = 15
    · subst hj; simp [hd, readReg_writeReg]
    · by_cases h0 : j = 0
      · subst h0; simp [hd]
      · simp [hd, hj, h0, readReg_writeReg]

/-- The registers after an instruction that writes one result to Rd. -/
theorem readReg_result (s : State) (d j : Reg) (v len : Word) :
    (s.result d v len).readReg j = regsAfter s d v (s.readReg 15) j := by
  unfold State.result regsAfter
  rw [readReg_advance, readReg_writeReg]
  by_cases hj : j = 15
  · subst hj; simp
  · simp [hj]

/-- The registers after an instruction that writes a result to Rd and then flags to R15. -/
theorem readReg_writeReg_writeFlags (s : State) (d j : Reg) (v : Word) (fs : FlagUpdate) :
    ((s.writeReg d v).writeFlags d fs).readReg j = regsAfter s d v (mergeFlags (s.readReg 15) fs) j := by
  rw [readReg_writeFlags, readReg_writeReg, readReg_writeReg]
  unfold regsAfter
  by_cases h0 : j = 0
  · subst h0; simp
  · by_cases hd : j = d
    · subst hd; simp [h0]
    · by_cases hj : j = 15
      · subst hj
        have : d ≠ 15 := fun e => hd e.symm
        simp [this, show (15 : Fin 16) ≠ d from hd]
      · simp [h0, hd, hj]

/-- The registers after a division: nothing written for a zero divisor, else the quotient to Rd and the remainder to R15. -/
theorem readReg_writeQuotient (s : State) (d j : Reg) (A B : Word) :
    (s.writeQuotient d A B).readReg j = if B = 0 then s.readReg j
      else regsAfter s d (low16 (floorDiv (signed A) (signed B))) (low16 (floorMod (signed A) (signed B))) j := by
  unfold State.writeQuotient regsAfter
  by_cases hB : B = 0
  · rw [if_pos hB, if_pos hB]; rfl
  · rw [if_neg hB, if_neg hB]
    by_cases hd : d = flagReg
    · rw [if_pos hd, readReg_advance, readReg_writeReg, hd]
      split
      · rfl
      · split <;> rfl
    · rw [if_neg hd, readReg_advance, readReg_writeReg, readReg_writeReg]
      by_cases hj : j = 15
      · subst hj
        simp [show ¬(15 : Fin 16) = d from fun e => hd e.symm]
      · by_cases h0 : j = 0 <;> simp [hj, h0]

/-- A register write keeps the zero of R0's entry. -/
theorem writeReg_entry_zero (s : State) (i : Reg) (v : Word) (h : s.regs[(0 : Fin 16)] = 0) :
    (s.writeReg i v).regs[(0 : Fin 16)] = 0 := by
  by_cases hi : i = 0
  · subst hi; simpa using h
  · have : ¬(i : Fin 16).val = 0 := fun e => hi (Fin.ext e)
    simpa [hi, Vector.getElem_set, this] using h

/-- So does a flag update. -/
theorem writeFlags_entry_zero (s : State) (d : Reg) (fs : FlagUpdate) (h : s.regs[(0 : Fin 16)] = 0) :
    (s.writeFlags d fs).regs[(0 : Fin 16)] = 0 := by
  unfold State.writeFlags
  split
  · exact h
  · exact writeReg_entry_zero _ _ _ h

end Sys2Proof.Laws
end

