-- ==== Sys2Proof/Laws/Operands.lean ====
section
/-! SUPPORT. The effective address as a 16-bit sum, and a bit counted from the most significant end. -/

namespace Sys2Proof.Laws

open Sys2Proof.Machine

/-- The effective address is the wrapped sum of the displacement and the index register. -/
theorem ea_eq (s : State) (disp : Word) (a : Reg) : s.ea disp a = disp + s.readReg a := by
  apply BitVec.eq_of_toNat_eq
  rw [State.ea, BitVec.toNat_ofNat, BitVec.toNat_add]
  simp

/-- The tested bit is the bit counted from the most significant end. -/
theorem ppcBit_eq (w : Word) (k : BitSel) : ppcBit w k = if w.getMsbD k.val then 1 else 0 := by
  have hk := k.isLt
  unfold ppcBit
  apply BitVec.eq_of_getLsbD_eq
  intro i hi
  have hm : w.getMsbD k.val = w.getLsbD (15 - k.val) := by simp [BitVec.getMsbD, hk]
  rw [hm]
  cases i with
  | zero => cases h : w.getLsbD (15 - k.val) <;> simp [h]
  | succ i => cases h : w.getLsbD (15 - k.val) <;> simp [BitVec.getLsbD_one]

/-- The mask of a source bit has that one bit. -/
theorem ppcMask_getLsbD (k : BitSel) (i : Nat) (hi : i < 16) : (ppcMask k).getLsbD i = decide (i = 15 - k.val) := by
  have h : ∀ k : Fin 16, ∀ i : Fin 16, (ppcMask k).getLsbD i.val = decide (i.val = 15 - k.val) := by decide
  exact h k ⟨i, hi⟩

end Sys2Proof.Laws
end

