-- ==== Sys2Proof/Laws/Flags.lean ====
section
/-! SUPPORT. R15 after each kind of flag update, as masks. -/

namespace Sys2Proof.Laws

open Sys2Proof.Machine

/-- The bit of R15 that a flag is. -/
theorem flag_eq (s : State) (f : Flag) : s.flag f = (s.readReg 15).getLsbD (15 - (flagBit f).val) := by
  have key : ∀ (w : Word) (k : Fin 16), decide ((w &&& ppcMask k) ≠ 0) = w.getLsbD (15 - k.val) := by
    intro w k
    have hm : ∀ i : Nat, i < 16 → (w &&& ppcMask k).getLsbD i = (w.getLsbD i && decide (i = 15 - k.val)) := by
      intro i hi
      rw [BitVec.getLsbD_and, ppcMask_getLsbD k i hi]
    by_cases hb : w.getLsbD (15 - k.val) = true
    · rw [hb, decide_eq_true_eq]
      intro h0
      have := hm (15 - k.val) (by omega)
      rw [h0, hb] at this
      simp at this
    · have hb' := Bool.eq_false_iff.mpr hb
      rw [hb', decide_eq_false_iff_not, not_not]
      apply BitVec.eq_of_getLsbD_eq
      intro i hi
      rw [hm i hi]
      by_cases hi' : i = 15 - k.val
      · subst hi'; simp [hb']
      · simp [hi']
  exact key _ _

/-- R15 after the update of an addition. -/
theorem mergeFlags_sumFlags (w : Word) (t : Sum) (h : t.C = t.V) :
    mergeFlags w (sumFlags t) = (w &&& 0xF8FF) ||| (if t.V then 0x0500 else 0) ||| (if t.v then 0x0200 else 0) := by
  have hn : ~~~(flagMask .ccV ||| (flagMask .ccv ||| (flagMask .ccC ||| 0))) = 0xF8FF := by decide
  have hs : ∀ V v : Bool, ((if V then flagMask .ccV else 0) ||| ((if v then flagMask .ccv else 0) |||
      ((if V then flagMask .ccC else 0) ||| 0)) : Word) = (if V then 0x0500 else 0) ||| (if v then 0x0200 else 0) := by decide
  simp only [mergeFlags, sumFlags, namedMask, setMask, h, hn, hs, BitVec.or_assoc]

/-- R15 after the update of a multiplication. -/
theorem mergeFlags_productFlags (w : Word) (p : Int) :
    mergeFlags w (productFlags p) = (w &&& 0xFDFF) ||| (if outsideSigned p then 0x0200 else 0) := by
  have hn : ~~~(flagMask .ccv ||| 0) = 0xFDFF := by decide
  have hs : ∀ v : Bool, ((if v then flagMask .ccv else 0) ||| 0 : Word) = if v then 0x0200 else 0 := by decide
  simp only [mergeFlags, productFlags, namedMask, setMask, hn, hs]

/-- R15 after the update of a comparison, before the flags are read as the two orders. -/
theorem mergeFlags_compareFlags (w A B : Word) :
    mergeFlags w (compareFlags A B) = (w &&& 0x07FF) ||| setMask (compareFlags A B) := by
  have hn : ~~~(flagMask .ccG ||| (flagMask .ccg ||| (flagMask .ccE ||| (flagMask .ccl ||| (flagMask .ccL ||| 0))))) =
      0x07FF := by decide
  simp only [mergeFlags, compareFlags, namedMask, hn]

end Sys2Proof.Laws
end

