-- ==== Sys2Proof/Laws/Memory.lean ====
section
/-! SUPPORT. Memory as a list of cells: what each operation leaves at every address, and that each keeps the canonical form. -/

namespace Sys2Proof.Laws

open Sys2Proof.Machine

/-! ### What an operation leaves at every address, in any list of cells -/

theorem read_erase (m : Memory) (a b : Nat) :
    Memory.read (Memory.erase m a) b = if b = a then Config.unwrittenWord else Memory.read m b := by
  induction m with
  | nil => simp [Memory.erase, Memory.read]
  | cons c m ih =>
    obtain ⟨k, v⟩ := c
    by_cases hk : k = a
    · have : Memory.erase ((k, v) :: m) a = Memory.erase m a := by simp [Memory.erase, hk]
      rw [this, ih]
      by_cases hb : b = a
      · simp [hb]
      · simp [hb, Memory.read, show ¬k = b from fun h => hb (h ▸ hk)]
    · have : Memory.erase ((k, v) :: m) a = (k, v) :: Memory.erase m a := by simp [Memory.erase, hk]
      rw [this]
      by_cases hkb : k = b
      · simp [Memory.read, hkb, show ¬b = a from fun h => hk (hkb.trans h)]
      · simp [Memory.read, hkb, ih]

theorem read_insert (m : Memory) (a b : Nat) (v : Word) (h : ∀ c ∈ m, c.1 ≠ a) :
    Memory.read (Memory.insert m a v) b = if b = a then v else Memory.read m b := by
  induction m with
  | nil =>
    by_cases hb : b = a
    · simp [Memory.insert, Memory.read, hb]
    · simp [Memory.insert, Memory.read, hb, show ¬a = b from fun h => hb h.symm]
  | cons c m ih =>
    obtain ⟨k, w⟩ := c
    have hk : k ≠ a := h (k, w) (by simp)
    have ih := ih fun c hc => h c (by simp [hc])
    by_cases hb : b = a
    · subst hb
      rw [if_pos rfl] at ih ⊢
      rw [Memory.insert]
      split
      · simp [Memory.read]
      · simpa [Memory.read, hk] using ih
    · have hab : ¬a = b := fun h => hb h.symm
      rw [if_neg hb] at ih ⊢
      rw [Memory.insert]
      split
      · simp [Memory.read, hab]
      · simp [Memory.read, ih]

theorem mem_erase_ne {m : Memory} {a : Nat} {c : Cell} (h : c ∈ Memory.erase m a) : c ∈ m ∧ c.1 ≠ a := by
  simpa [Memory.erase] using h

/-- A write replaces the word at its address and no other, in any list of cells. -/
theorem read_write (m : Memory) (a b : Nat) (v : Word) :
    Memory.read (Memory.write m a v) b = if b = a then v else Memory.read m b := by
  unfold Memory.write
  split
  · next hv => rw [read_erase, hv]
  · rw [read_insert _ _ _ _ fun c hc => (mem_erase_ne hc).2, read_erase]
    split <;> rfl

/-! ### The canonical form -/

theorem wf_nil : Memory.wf [] := by decide

theorem wf_tail {c : Cell} {m : Memory} (h : Memory.wf (c :: m)) : Memory.wf m :=
  ⟨h.1.tail, fun c' hc' => h.2 c' (List.mem_cons_of_mem _ hc')⟩

theorem wf_erase {m : Memory} (a : Nat) (h : Memory.wf m) : Memory.wf (Memory.erase m a) :=
  ⟨h.1.filter _, fun c hc => h.2 c (mem_erase_ne hc).1⟩

theorem mem_insert {m : Memory} {a : Nat} {v : Word} {c : Cell} (h : c ∈ Memory.insert m a v) : c = (a, v) ∨ c ∈ m := by
  induction m with
  | nil => simpa [Memory.insert] using h
  | cons e m ih =>
    obtain ⟨k, w⟩ := e
    by_cases hlt : a < k
    · simpa [Memory.insert, hlt] using h
    · rw [Memory.insert, if_neg hlt, List.mem_cons] at h
      rcases h with rfl | h
      · simp
      · rcases ih h with rfl | h <;> simp_all

theorem wf_insert {m : Memory} {a : Nat} {v : Word} (h : Memory.wf m) (hne : ∀ c ∈ m, c.1 ≠ a) (ha : a < 65536)
    (hv : v ≠ Config.unwrittenWord) : Memory.wf (Memory.insert m a v) := by
  induction m with
  | nil => exact ⟨by simp [Memory.insert], by simp [Memory.insert, ha, hv]⟩
  | cons e m ih =>
    obtain ⟨k, w⟩ := e
    have hk : k ≠ a := hne (k, w) (by simp)
    have htail := List.pairwise_cons.mp h.1
    by_cases hlt : a < k
    · rw [Memory.insert, if_pos hlt]
      refine ⟨List.pairwise_cons.mpr ⟨fun c hc => ?_, h.1⟩, fun c hc => ?_⟩
      · rcases List.mem_cons.mp hc with rfl | hc
        · exact hlt
        · exact lt_trans hlt (htail.1 c hc)
      · rcases List.mem_cons.mp hc with rfl | hc
        · exact ⟨ha, hv⟩
        · exact h.2 c hc
    · rw [Memory.insert, if_neg hlt]
      have ih := ih (wf_tail h) fun c hc => hne c (List.mem_cons_of_mem _ hc)
      refine ⟨List.pairwise_cons.mpr ⟨fun c hc => ?_, ih.1⟩, fun c hc => ?_⟩
      · rcases mem_insert hc with rfl | hc
        · exact lt_of_le_of_ne (not_lt.mp hlt) hk
        · exact htail.1 c hc
      · rcases List.mem_cons.mp hc with rfl | hc
        · exact h.2 _ (by simp)
        · exact ih.2 c hc

/-- A write of any word within the address space keeps the canonical form. -/
theorem wf_write {m : Memory} {a : Nat} (v : Word) (h : Memory.wf m) (ha : a < 65536) : Memory.wf (Memory.write m a v) := by
  unfold Memory.write
  split
  · exact wf_erase a h
  · next hv => exact wf_insert (wf_erase a h) (fun c hc => (mem_erase_ne hc).2) ha hv

/-- So does a write of a block of words from any base. -/
theorem wf_writeBlock {m : Memory} (base : Word) (ws : List Word) (h : Memory.wf m) :
    Memory.wf (Memory.writeBlock m base ws) := by
  induction ws generalizing m base with
  | nil => exact h
  | cons w ws ih => exact ih _ (wf_write w h base.isLt)

/-! ### Blocks -/

theorem toNat_succ (w : Word) : (w + 1).toNat = (w.toNat + 1) % 65536 := by
  rw [BitVec.toNat_add]; rfl

theorem bufferIndex_eq (base addr : Word) : bufferIndex base addr = (65536 - base.toNat + addr.toNat) % 65536 := by
  rw [bufferIndex, BitVec.toNat_sub]

/-- The index of an address in a buffer moves with the buffer's base. -/
theorem bufferIndex_succ (base addr : Word) (h : addr ≠ base) : bufferIndex base addr = bufferIndex (base + 1) addr + 1 := by
  have : addr.toNat ≠ base.toNat := fun e => h (BitVec.eq_of_toNat_eq e)
  have h1 := addr.isLt
  have h2 := base.isLt
  rw [bufferIndex_eq, bufferIndex_eq, toNat_succ]
  omega

/-- A block of at most 65536 words leaves each address of its buffer with the word of its index, and no other changed. -/
theorem read_writeBlock (m : Memory) (base addr : Word) (ws : List Word) (hlen : ws.length ≤ 65536) :
    Memory.read (Memory.writeBlock m base ws) addr.toNat = (ws[bufferIndex base addr]?).getD (Memory.read m addr.toNat) := by
  induction ws generalizing m base with
  | nil => simp [Memory.writeBlock]
  | cons w ws ih =>
    have hlen' : ws.length + 1 ≤ 65536 := by simpa using hlen
    rw [Memory.writeBlock, ih _ _ (by omega), read_write]
    by_cases h : addr = base
    · subst h
      have h0 : bufferIndex addr addr = 0 := by simp [bufferIndex]
      have h1 : ws.length ≤ bufferIndex (addr + 1) addr := by
        have := addr.isLt
        rw [bufferIndex_eq, toNat_succ]
        omega
      rw [h0, List.getElem?_eq_none h1]
      simp
    · rw [bufferIndex_succ base addr h, if_neg fun e => h (BitVec.eq_of_toNat_eq e)]
      simp

theorem readBlock_length (m : Memory) (base : Word) (n : Nat) : (Memory.readBlock m base n).length = n := by
  induction n generalizing base with
  | zero => rfl
  | succ n ih => simp [Memory.readBlock, ih]

/-- The words of a block read are those at the ascending addresses from the base. -/
theorem readBlock_getElem? (m : Memory) (base : Word) (n i : Nat) (h : i < n) :
    (Memory.readBlock m base n)[i]? = some (Memory.read m (bufferAddr base i).toNat) := by
  induction n generalizing base i with
  | zero => omega
  | succ n ih =>
    cases i with
    | zero => simp [Memory.readBlock, bufferAddr]
    | succ i =>
      have e : bufferAddr (base + 1) i = bufferAddr base (i + 1) := by
        apply BitVec.eq_of_toNat_eq
        rw [bufferAddr, bufferAddr, BitVec.toNat_add, toNat_succ, BitVec.toNat_add, BitVec.toNat_ofNat, BitVec.toNat_ofNat]
        omega
      rw [Memory.readBlock, List.getElem?_cons_succ, ih (base + 1) i (by omega), e]

end Sys2Proof.Laws
end

