-- ==== Sys2Proof/Laws/PerInstr.lean ====
section
/-! SUPPORT. The per-instruction family Encoding: the first word of every instruction is a defined one, its nibbles read back
as they were packed, and its top nibble gives the format that the presence of a displacement word asks for
(30_encoding.md R50 to R52, R58). -/

namespace Sys2Proof.Laws.Encoding

open Sys2Proof Sys2Proof.Laws

/-- What the family says of an instruction. -/
def Statement (i : Instr) : Prop :=
  wellFormedInstr i = true ∧ fieldsOfWord (packWord (fieldsOf i)) = fieldsOf i ∧
    formatOfWord (packWord (fieldsOf i)) = if (displacementOf i).isSome then .rx else .rrr

/-- The family for one instruction, from the three things its nibbles must satisfy. -/
theorem of_fields {i : Instr} (hw : wellFormedInstr i = true)
    (hf : (if (fieldsOf i).op = 0xF then Format.rx else Format.rrr) = if (displacementOf i).isSome then .rx else .rrr) :
    Statement i :=
  ⟨hw, fieldsOfWord_packWord _, (formatOfWord_packWord _).trans hf⟩

theorem add (d a b : Reg) : Statement (.add d a b) := of_fields rfl rfl

theorem sub (d a b : Reg) : Statement (.sub d a b) := of_fields rfl rfl

theorem mul (d a b : Reg) : Statement (.mul d a b) := of_fields rfl rfl

theorem div (d a b : Reg) : Statement (.div d a b) := of_fields rfl rfl

theorem cmp (a b : Reg) : Statement (.cmp a b) := of_fields rfl rfl

theorem cmplt (d a b : Reg) : Statement (.cmplt d a b) := of_fields rfl rfl

theorem cmpeq (d a b : Reg) : Statement (.cmpeq d a b) := of_fields rfl rfl

theorem cmpgt (d a b : Reg) : Statement (.cmpgt d a b) := of_fields rfl rfl

theorem inv (d a : Reg) : Statement (.inv d a) := of_fields rfl rfl

theorem and (d a b : Reg) : Statement (.and d a b) := of_fields rfl rfl

theorem or (d a b : Reg) : Statement (.or d a b) := of_fields rfl rfl

theorem xor (d a b : Reg) : Statement (.xor d a b) := of_fields rfl rfl

theorem addc (d a b : Reg) : Statement (.addc d a b) := of_fields rfl rfl

theorem trap (d a b : Reg) : Statement (.trap d a b) := of_fields rfl rfl

theorem lea (d a : Reg) (disp : Word) : Statement (.lea d a disp) := of_fields rfl rfl

theorem load (d a : Reg) (disp : Word) : Statement (.load d a disp) := of_fields rfl rfl

theorem store (d a : Reg) (disp : Word) : Statement (.store d a disp) := of_fields rfl rfl

theorem jump (d a : Reg) (disp : Word) : Statement (.jump d a disp) := of_fields rfl rfl

theorem jumpc0 (k : BitSel) (a : Reg) (disp : Word) : Statement (.jumpc0 k a disp) := of_fields rfl rfl

theorem jumpc1 (k : BitSel) (a : Reg) (disp : Word) : Statement (.jumpc1 k a disp) := of_fields rfl rfl

theorem jumpf (d a : Reg) (disp : Word) : Statement (.jumpf d a disp) := of_fields rfl rfl

theorem jumpt (d a : Reg) (disp : Word) : Statement (.jumpt d a disp) := of_fields rfl rfl

theorem jal (d a : Reg) (disp : Word) : Statement (.jal d a disp) := of_fields rfl rfl

end Sys2Proof.Laws.Encoding
end

