-- ==== Sys2Proof/Laws/Step.lean ====
section
/-! SUPPORT. Everything a step and a service routine can do, said once. -/

namespace Sys2Proof.Laws

open Sys2Proof.Machine

/-- A step that answers a next state is of a running machine, and either records the illegal word at the pc or executes the
instruction fetched. -/
theorem step_next {s t : State} (h : step s = .next t) :
    s.Running ∧ ((∃ e, s.fetchInstr = .error e ∧ t = s.raise (.illegalInstruction s.pc (s.readMem s.pc))) ∨
      ∃ i, s.fetchInstr = .ok i ∧ exec i s = .next t) := by
  unfold step at h
  split at h
  · cases h
  · next hh =>
    split at h
    · cases h
    · next hf =>
      refine ⟨⟨by simpa using hh, hf⟩, ?_⟩
      split at h
      · next e he => exact .inl ⟨e, he, by injection h with h; exact h.symm⟩
      · next i hi => exact .inr ⟨i, hi, h⟩

/-- The fetched instruction is the one the fetched words decode to. -/
theorem fetchInstr_ok {s : State} {i : Instr} : s.fetchInstr = .ok i ↔ ∃ rest, decode s.fetchWords = .ok (i, rest) := by
  unfold State.fetchInstr
  cases h : decode s.fetchWords with
  | error e => simp
  | ok p => obtain ⟨j, rest⟩ := p; simp

/-- The four cases of a service call. -/
theorem callRoutine_cases (code addr size trapAddr : Word) (s : State) :
    (code = 0 ∧ callRoutine code addr size trapAddr s = s.halt) ∨
      (code = 1 ∧ callRoutine code addr size trapAddr s = s.acceptInput addr size.toNat) ∨
      (code = 2 ∧ callRoutine code addr size trapAddr s = s.emitBlock addr size.toNat) ∨
      (2 < code.toNat ∧ callRoutine code addr size trapAddr s = s.raise (.unknownTrap code trapAddr)) := by
  unfold callRoutine
  split
  · exact .inl ⟨‹_›, rfl⟩
  · split
    · exact .inr (.inl ⟨‹_›, rfl⟩)
    · split
      · exact .inr (.inr (.inl ⟨‹_›, rfl⟩))
      · next h0 h1 h2 =>
        refine .inr (.inr (.inr ⟨?_, rfl⟩))
        have e : ∀ n : Nat, n < 65536 → code.toNat = n → code = BitVec.ofNat 16 n := by
          intro n hn h
          apply BitVec.eq_of_toNat_eq
          rw [BitVec.toNat_ofNat, h]
          omega
        by_contra hlt
        have : code.toNat = 0 ∨ code.toNat = 1 ∨ code.toNat = 2 := by omega
        rcases this with h | h | h
        · exact h0 (e 0 (by omega) h)
        · exact h1 (e 1 (by omega) h)
        · exact h2 (e 2 (by omega) h)

/-- The words the host supplies, one by one. -/
theorem inputWords_getElem? (s : State) (n i : Nat) :
    (s.inputWords n)[i]? = if i < n then some (Config.hostInput (s.inputPos + i)) else none := by
  unfold State.inputWords
  split <;> simp_all

theorem inputWords_length (s : State) (n : Nat) : (s.inputWords n).length = n := by simp [State.inputWords]

end Sys2Proof.Laws
end

