-- ==== Sys2Proof/Tests/Slice0.lean ====
section
/-! SUPPORT. The model's own tests. Every expected value is one of spec/95_test_vectors.md (the section is named) or, for the
decodings, a word written out bit by bit from the patterns of 30_encoding.md R56 and R57. The last part holds, for each
statement with hypotheses, a state and operands that meet them together. -/

namespace Sys2Proof.Tests

open Sys2Proof Sys2Proof.Machine Sys2Proof.Laws

/-- Reset, with some registers and some words of memory written. -/
def start (rs : List (Reg × Word)) (ms : List (Word × Word)) : State :=
  ms.foldl (fun s c => s.writeMem c.1 c.2) (rs.foldl (fun s c => s.writeReg c.1 c.2) State.reset)

/-- The state after one step, if there is one. -/
def after (s : State) : Option State :=
  match step s with
  | .next t => some t
  | _ => none

/-- Two registers after one step of a one-word instruction at address 0. -/
def regs2 (w0 : Word) (rs : List (Reg × Word)) (i j : Reg) : Option (Word × Word) :=
  (after (start rs [(0, w0)])).map fun t => (t.readReg i, t.readReg j)

/-- A register and the pc after one step of a two-word instruction at address 0. -/
def regPc (w0 w1 : Word) (rs : List (Reg × Word)) (ms : List (Word × Word)) (i : Reg) : Option (Word × Word) :=
  (after (start rs ((0, w0) :: (1, w1) :: ms))).map fun t => (t.readReg i, t.pc)

/-! ### WellFormed: one ill-formed term for each check -/

theorem test_wellFormed_accepts_add : (⟨0x0, 3, 1, 2⟩ : Fields).wellFormed = true := by decide
theorem test_wellFormed_refuses_opcode_E : (⟨0xE, 1, 2, 3⟩ : Fields).wellFormed = false := by decide
theorem test_wellFormed_refuses_cmp_rd : (⟨0x4, 3, 1, 2⟩ : Fields).wellFormed = false := by decide
theorem test_wellFormed_refuses_inv_rb : (⟨0x8, 3, 1, 5⟩ : Fields).wellFormed = false := by decide
theorem test_wellFormed_refuses_subOpcode_9 : (⟨0xF, 0, 0, 9⟩ : Fields).wellFormed = false := by decide

/-! ### Decoding: one word a constructor, written out from 30_encoding.md R56 and R57 -/


theorem test_decode_add : decode [0b0000001100010010] = .ok (.add 3 1 2, []) := by decide
theorem test_decode_sub : decode [0b0001001100010010] = .ok (.sub 3 1 2, []) := by decide
theorem test_decode_mul : decode [0b0010001100010010] = .ok (.mul 3 1 2, []) := by decide
theorem test_decode_div : decode [0b0011001100010010] = .ok (.div 3 1 2, []) := by decide
theorem test_decode_cmp : decode [0b0100000000010010] = .ok (.cmp 1 2, []) := by decide
theorem test_decode_cmplt : decode [0b0101101010111100] = .ok (.cmplt 10 11 12, []) := by decide
theorem test_decode_cmpeq : decode [0b0110001100010010] = .ok (.cmpeq 3 1 2, []) := by decide
theorem test_decode_cmpgt : decode [0b0111001100010010] = .ok (.cmpgt 3 1 2, []) := by decide
theorem test_decode_inv : decode [0b1000001100010000] = .ok (.inv 3 1, []) := by decide
theorem test_decode_and : decode [0b1001001100010010] = .ok (.and 3 1 2, []) := by decide
theorem test_decode_or : decode [0b1010001100010010] = .ok (.or 3 1 2, []) := by decide
theorem test_decode_xor : decode [0b1011001100010010] = .ok (.xor 3 1 2, []) := by decide
theorem test_decode_addc : decode [0b1100111111111111] = .ok (.addc 15 15 15, []) := by decide
theorem test_decode_trap : decode [0b1101000100100011] = .ok (.trap 1 2 3, []) := by decide
theorem test_decode_lea : decode [0b1111000100000000, 0x0005] = .ok (.lea 1 0 0x0005, []) := by decide
theorem test_decode_load : decode [0b1111000100100001, 0x0005] = .ok (.load 1 2 0x0005, []) := by decide
theorem test_decode_store : decode [0b1111001100100010, 0x0100] = .ok (.store 3 2 0x0100, []) := by decide
theorem test_decode_jump : decode [0b1111011100100011, 0xFFFF] = .ok (.jump 7 2 0xFFFF, []) := by decide
theorem test_decode_jumpc0 : decode [0b1111011110100100, 0x0050] = .ok (.jumpc0 7 10 0x0050, []) := by decide
theorem test_decode_jumpc1 : decode [0b1111011100000101, 0x0050] = .ok (.jumpc1 7 0 0x0050, []) := by decide
theorem test_decode_jumpf : decode [0b1111010000000110, 0x0050] = .ok (.jumpf 4 0 0x0050, []) := by decide
theorem test_decode_jumpt : decode [0b1111010001000111, 0x0010] = .ok (.jumpt 4 4 0x0010, []) := by decide
theorem test_decode_jal : decode [0b1111110100001000, 0x0040] = .ok (.jal 13 0 0x0040, []) := by decide
theorem test_decode_opcode_E : decode [0xE000] = .error .undefinedOpcode := by decide
theorem test_decode_cmp_rd : decode [0x4312] = .error .cmpRdReserved := by decide
theorem test_decode_inv_rb : decode [0x8315] = .error .invRbReserved := by decide
theorem test_decode_subOpcode_9 : decode [0xF009, 0] = .error .undefinedSubOpcode := by decide
theorem test_decodeTableWord_rrr : decodeTableWord 16 0x0312 = some (.add 3 1 2) := by decide
theorem test_decodeTableWord_rx : decodeTableWord 32 0x0005F121 = some (.load 1 2 5) := by decide
theorem test_decodeTableWord_rx_short : decodeTableWord 16 0xF121 = some (.load 1 2 0) := by decide
theorem test_withFetchWord_fetches : (State.reset.withFetchWord 32 0x0005F121).fetchInstr = .ok (.load 1 2 5) := by decide

/-! ### Arithmetic (95_test_vectors.md 2.1 to 2.5) -/

theorem test_add_both_overflows : regs2 0x0312 [(1, 0x8000), (2, 0xFFFF)] 3 15 = some (0x7FFF, 0x0700) := by decide
theorem test_add_keeps_other_bits :
    regs2 0x0312 [(1, 0x1234), (2, 0x1111), (15, 0xFFFF)] 3 15 = some (0x2345, 0xF8FF) := by decide
theorem test_sub_no_borrow_sets_carry : regs2 0x1312 [(1, 5), (2, 3)] 3 15 = some (0x0002, 0x0500) := by decide
theorem test_sub_of_8000 : regs2 0x1312 [(1, 0xFFFF), (2, 0x8000)] 3 15 = some (0x7FFF, 0x0700) := by decide
theorem test_addc_carry_ripples : regs2 0xC312 [(1, 0xFFFF), (15, 0x0100)] 3 15 = some (0x0000, 0x0500) := by decide
theorem test_addc_ignores_ccV : regs2 0xC312 [(15, 0x0400)] 3 15 = some (0x0000, 0x0000) := by decide
theorem test_mul_negative_overflow : regs2 0x2312 [(1, 0xFF4B), (2, 0x00B6)] 3 15 = some (0x7F52, 0x0200) := by decide
theorem test_mul_clears_only_ccv : regs2 0x2312 [(2, 0x8000), (15, 0xFFFF)] 3 15 = some (0x0000, 0xFDFF) := by decide
theorem test_div_ten_by_minus_four : regs2 0x3312 [(1, 0x000A), (2, 0xFFFC)] 3 15 = some (0xFFFD, 0xFFFE) := by decide
theorem test_div_old_R15_divides : regs2 0x331F [(1, 0x0007), (15, 0x0002)] 3 15 = some (0x0003, 0x0001) := by decide

/-! ### Comparison and logic (2.6 to 2.8) -/

theorem test_cmp_unsigned_greater_signed_less : regs2 0x4012 [(1, 0xFFFF), (2, 1)] 1 15 = some (0xFFFF, 0x9000) := by decide
theorem test_cmp_keeps_other_bits : regs2 0x4012 [(15, 0xFFFF)] 1 15 = some (0x0000, 0x27FF) := by decide
theorem test_cmplt_signed : regs2 0x5312 [(1, 0x8000), (2, 0x7FFF), (15, 0xBEEF)] 3 15 = some (1, 0xBEEF) := by decide
theorem test_cmplt_to_R15 : regs2 0x5F12 [(1, 0xFFFF), (2, 1), (15, 0xFFFF)] 1 15 = some (0xFFFF, 1) := by decide
theorem test_cmpeq : regs2 0x6312 [(1, 2), (2, 2), (15, 0xBEEF)] 3 15 = some (1, 0xBEEF) := by decide
theorem test_cmpgt_signed : regs2 0x7312 [(1, 1), (2, 0xFFFF), (15, 0xBEEF)] 3 15 = some (1, 0xBEEF) := by decide
theorem test_inv : regs2 0x8310 [(1, 0x1234), (15, 0xBEEF)] 3 15 = some (0xEDCB, 0xBEEF) := by decide
theorem test_and : regs2 0x9312 [(1, 0x8001), (2, 0xC003)] 3 15 = some (0x8001, 0) := by decide
theorem test_or : regs2 0xA312 [(1, 0x0F0F), (2, 0x00FF)] 3 15 = some (0x0FFF, 0) := by decide
theorem test_xor : regs2 0xB312 [(1, 0x8001), (2, 0xC003)] 3 15 = some (0x4002, 0) := by decide

/-! ### Memory and control transfer (2.9, 2.10) -/

theorem test_lea_wraps : regPc 0xF120 0xFFFF [(2, 2)] [] 1 = some (0x0001, 0x0002) := by decide
theorem test_load_through_its_destination :
    regPc 0xF221 0x0100 [(2, 4)] [(0x0104, 0xBEEF)] 2 = some (0xBEEF, 0x0002) := by decide
theorem test_load_its_own_first_word : regPc 0xF101 0x0000 [] [] 1 = some (0xF101, 0x0002) := by decide
theorem test_store : (after (start [(2, 4), (3, 0xCAFE)] [(0, 0xF322), (1, 0x0100)])).map (·.readMem 0x0104)
    = some 0xCAFE := by decide
theorem test_store_zero_unlists : (after (start [] [(0, 0xF002), (1, 0x0100), (0x0100, 0x1234)])).map (·.mem)
    = some [(0, 0xF002), (1, 0x0100)] := by decide
theorem test_jump_ignores_rd : regPc 0xF723 0xFFFF [(2, 1), (7, 9)] [] 7 = some (0x0009, 0x0000) := by decide
theorem test_jumpc0_counts_from_the_top : regPc 0xF204 0x0050 [(15, 0x0004)] [] 15 = some (0x0004, 0x0050) := by decide
theorem test_jumpc0_not_taken : regPc 0xF204 0x0050 [(15, 0x2000)] [] 15 = some (0x2000, 0x0002) := by decide
theorem test_jumpc1_last_bit : regPc 0xFF05 0x0050 [(15, 0x0001)] [] 15 = some (0x0001, 0x0050) := by decide
theorem test_jumpc1_not_taken : regPc 0xF305 0x0050 [(15, 0xEFFF)] [] 15 = some (0xEFFF, 0x0002) := by decide
theorem test_jumpf_tests_all_bits : regPc 0xF406 0x0050 [(4, 0x0100)] [] 4 = some (0x0100, 0x0002) := by decide
theorem test_jumpf_R0 : regPc 0xF006 0x0050 [] [] 0 = some (0x0000, 0x0050) := by decide
theorem test_jumpt_same_register : regPc 0xF447 0x0010 [(4, 5)] [] 4 = some (0x0005, 0x0015) := by decide
theorem test_jumpt_R0 : regPc 0xF007 0x0050 [] [] 0 = some (0x0000, 0x0002) := by decide
theorem test_jal_through_its_destination :
    (after (start [(13, 0x0030)] [(0x10, 0xFDD8), (0x11, 0x0002)] |>.setPc 0x10)).map (fun t => (t.readReg 13, t.pc))
      = some (0x0012, 0x0032) := by decide
theorem test_jal_at_the_top :
    (after (start [] [(0xFFFF, 0xFD08), (0, 0x0040)] |>.setPc 0xFFFF)).map (fun t => (t.readReg 13, t.pc))
      = some (0x0001, 0x0040) := by decide

/-! ### trap, illegal words, ends (2.11 to 2.13) -/

theorem test_trap_exit : (after (start [] [(0, 0xD000)])).map (fun t => (t.halted, t.pc)) = some (true, 0x0001) := by decide
theorem test_trap_write_wraps :
    (after (start [(1, 2), (2, 0xFFFF), (3, 2)] [(0, 0xD123), (0xFFFF, 0x1111)])).map (·.output)
      = some [0x1111, 0xD123] := by decide
theorem test_trap_read_fills_the_buffer (s : State) : (s.acceptInput 0x0020 2).readMem 0x0021 = Config.hostInput (s.inputPos + 1) := by
  rw [State.readMem, acceptInput_mem, read_writeBlock _ _ _ _ (by rw [inputWords_length]; decide)]
  rfl
theorem test_trap_unknown : (after (start [(1, 0x0100)] [(0, 0xD123)])).map (fun t => (t.fault, t.pc))
    = some (some (.unknownTrap 0x0100 0x0000), 0x0001) := by decide
theorem test_illegal_word : (after (start [] [(0, 0xE123)])).map (fun t => (t.fault, t.pc))
    = some (some (.illegalInstruction 0x0000 0xE123), 0x0000) := by decide
theorem test_pc_wraps : (after (State.reset.setPc 0xFFFF)).map (·.pc) = some 0x0000 := by decide
theorem test_halted_takes_no_step : (match step (State.reset.halt) with | .fault f => some f | _ => none) = some .halted := by
  decide

/-! ### Witnesses: the hypotheses of each statement that has any, met together -/

/-- A state with a canonical memory that holds the highest address, and registers that name no special value. -/
def sample : State := start [(1, 0x000A), (2, 0xFFFC), (3, 0x0002), (15, 0x0100)] [(0, 0xF302), (1, 0x0100), (0xFFFF, 0x1111)]

theorem witness_RegisterZeroReadsZeroAndDropsOnlyTheWrite :
    (1 : Reg) ≠ 0 ∧ (1 : Reg) ≠ 15 ∧ (fun r => Instr.add r 1 2) ∈
      [fun r => Instr.add r 1 2, fun r => .sub r 1 2, fun r => .mul r 1 2, fun r => .div r 1 2, fun r => .addc r 1 2,
        fun r => .cmplt r 1 2, fun r => .cmpeq r 1 2, fun r => .cmpgt r 1 2, fun r => .inv r 1, fun r => .and r 1 2,
        fun r => .or r 1 2, fun r => .xor r 1 2, fun r => .lea r 1 5, fun r => .load r 1 5, fun r => .jal r 1 5] :=
  ⟨by decide, by decide, List.mem_cons_self⟩

theorem witness_RegisterWritesCommuteAndTheLastWins : (1 : Reg) ≠ 15 ∧ (1 : Reg) ≠ 0 := by decide

theorem witness_OnlyTheTabledRegistersChange :
    exec (.add 3 1 2) sample = .next (sample.writeSum 3 (addWithFlags 0x000A 0xFFFC false)) ∧ (14 : Reg) ∉ writtenRegs (.add 3 1 2) :=
  ⟨rfl, by decide⟩

theorem witness_FloorDivisionIsTheFloorOfTheQuotient :
    ((-7 : Int) < 0 ↔ (0 : Int) < 2) ∧ (2 : Int) ≠ 0 ∧ (-7 : Int) ≠ 0 ∧ floorMod (-7) 2 ≠ 0 ∧
      ((7 : Int) < 0 ↔ (0 : Int) < -2) ∧ floorMod 7 (-2) ≠ 0 := by decide

theorem witness_DivWritesFloorQuotientAndRemainder : sample.readReg 2 ≠ 0 ∧
    (start [(1, 0x8000), (2, 0xFFFF)] []).readReg 2 ≠ 0 := by decide

theorem witness_DivByZeroOnlyAdvances : sample.readReg 0 = 0 ∧ sample.readReg 4 = 0 := by decide

theorem witness_DivQuotientTimesDivisorPlusRemainder : (3 : Reg) ≠ 0 ∧ (3 : Reg) ≠ 15 ∧ sample.readReg 2 ≠ 0 := by decide

theorem witness_AddThenAddcAddsThirtyTwoBits :
    (5 : Reg) ≠ 0 ∧ (5 : Reg) ≠ 15 ∧ (6 : Reg) ≠ 0 ∧ (6 : Reg) ≠ 5 ∧ (2 : Reg) ≠ 5 ∧ (4 : Reg) ≠ 5 ∧ (2 : Reg) ≠ 15 ∧
      (4 : Reg) ≠ 15 := by decide

theorem witness_InvComplementsEveryBit : (5 : Reg) ≠ 0 ∧ decode [nibbleWord 0x8 3 1 5] = .error .invRbReserved := by
  decide

theorem witness_MemoryWritesCommuteAndTheLastWins :
    Memory.wf sample.mem ∧ sample.mem ≠ [] ∧ (0xFFFF : Word) ≠ 0x0000 := by decide

theorem witness_CanonicalMemoriesAreEqualWhenTheyReadEqual :
    Memory.wf [(0, 1), (65535, 2)] ∧ ∀ a < 65536, Memory.read [(0, 1), (65535, 2)] a = Memory.read [(0, 1), (65535, 2)] a :=
  ⟨by decide, fun _ _ => rfl⟩

theorem witness_StoreThenLoadReturnsTheWord : (4 : Reg) ≠ 0 ∧ (0x0108 : Word) + sample.readReg 3 = 0x0100 + sample.readReg 1 := by
  decide

theorem witness_StoredWordIsFetchedNext : (0x0002 : Word) + sample.readReg 0 = sample.pc + 2 := by decide

theorem witness_JumpThroughTheLinkReturns : (13 : Reg) ≠ 0 ∧ (15 : Reg) ≠ 0 := by decide

theorem witness_TrapExitHaltsAndChangesNothingElse : sample.readReg 0 = 0 ∧ sample.readReg 4 = 0 := by decide

theorem witness_TrapReadFillsExactlyTheBuffer : (start [(1, 1), (2, 0xFFFF), (3, 2)] []).readReg 1 = 1 := by decide

/-- The two sides of the buffer's test where it wraps: index 1 of two words is in it, index 2 is not. -/
theorem witness_TrapRead_buffer_edges : bufferIndex 0xFFFF 0xFFFF = 0 ∧ bufferIndex 0xFFFF 0x0000 = 1 ∧
    bufferIndex 0xFFFF 0x0001 = 2 ∧ bufferIndex 0xFFFF 0xFFFE = 65535 := by decide

theorem witness_TrapWriteAppendsTheBuffer : sample.readReg 3 = 2 ∧ (sample.emitBlock 0xFFFF 2).output.length = 2 := by decide

theorem witness_TrapUnknownRoutineRaisesUnknownTrap :
    2 < ((start [(1, 3)] []).readReg 1).toNat ∧ 2 < ((start [(1, 0xFFFF)] []).readReg 1).toNat := by decide

theorem witness_StepRunsTheDecodedInstruction :
    sample.Running ∧ decode sample.fetchWords = .ok (.store 3 0 0x0100, []) := by decide

/-- The edges: the two formats, and the last defined and first undefined sub-opcode. -/
theorem witness_FetchTakesWordsAtThePcAndAfterIt :
    (start [] [(0, 0xEFFF)]).fetchWords = [0xEFFF] ∧ (start [] [(0xFFFF, 0xF000), (0, 5)] |>.setPc 0xFFFF).fetchWords = [0xF000, 5] ∧
      (start [] [(0, 0xF128), (1, 5)]).fetchWords = [0xF128, 5] ∧ (start [] [(0, 0xF129), (1, 5)]).fetchWords = [0xF129] := by
  decide

theorem witness_StepOnIllegalWordOnlyRaises :
    (start [] [(0, 0xF009)]).Running ∧ (fieldsOfWord ((start [] [(0, 0xF009)]).readMem 0)).wellFormed = false ∧
      (fieldsOfWord 0xE000).wellFormed = false ∧ (fieldsOfWord 0x4100).wellFormed = false ∧
      (fieldsOfWord 0x8001).wellFormed = false := by decide

theorem witness_HaltedOrFaultedMachineTakesNoStep :
    ¬State.reset.halt.Running ∧ ¬(State.reset.raise (.unknownTrap 3 0)).Running := by decide

theorem witness_EveryRunningStateHasANextState : State.reset.Running ∧ sample.Running := by decide

/-- Runs that end each way in one step. -/
theorem witness_RunEndsOnlyByExitOrFault :
    (after (start [] [(0, 0xD000)])).map (·.halted) = some true ∧
      (after (start [(1, 3)] [(0, 0xD123)])).map (·.fault) = some (some (.unknownTrap 3 0)) ∧
      (after (start [] [(0, 0xE000)])).map (·.fault) = some (some (.illegalInstruction 0 0xE000)) := by decide

theorem witness_OnlyTrapTouchesTheHost :
    (∀ d a b, Instr.lea 1 0 5 ≠ .trap d a b) ∧ exec (.lea 1 0 5) sample = .next (sample.result 1 (sample.ea 5 0) 2) :=
  ⟨fun _ _ _ => by simp, rfl⟩

theorem witness_OnlyStoreAndReadWriteMemory :
    (∀ d a disp, Instr.trap 3 1 2 ≠ .store d a disp) ∧ (∀ d a b, Instr.trap 3 1 2 = .trap d a b → sample.readReg d ≠ 1) ∧
      exec (.trap 3 1 2) sample = .next (callRoutine 2 0x000A 0xFFFC 0 (sample.advance 1)) := by
  refine ⟨fun _ _ _ => by simp, fun d a b h => ?_, rfl⟩
  cases h
  decide

theorem witness_OnlyJumpsLeaveTheSequence :
    exec (.jump 0 1 0x0010) sample = .next (sample.setPc 0x001A) ∧ exec (.and 0 0 0) sample = .next (sample.advance 1) :=
  ⟨rfl, rfl⟩

theorem witness_EveryStepKeepsTheInvariant : sample.Inv ∧ (after sample).isSome = true := by decide

theorem witness_LaunchPlacesTheImage : [0xF100, 0x0002, 0xD000].length ≤ 65536 ∧ (List.replicate 65536 (0 : Word)).length ≤ 65536 :=
  ⟨by decide, Nat.le_of_eq List.length_replicate⟩

theorem witness_DecodeOfEncodeIsTheInstruction : wellFormedInstr (.jal 15 15 0xFFFF) = true ∧ wellFormedInstr (.cmp 0 15) = true := by
  decide

theorem witness_EncodeOfDecodeIsTheWords : decode [0xF7A4, 0x0050, 0xD000] = .ok (.jumpc0 7 10 0x0050, [0xD000]) := by decide

theorem witness_DecoderAcceptsExactlyTheDefinedWords :
    (0xE123 : Word).toNat / 4096 = 0xE ∧ ((0xF129 : Word).toNat / 4096 = 0xF ∧ 9 ≤ (0xF129 : Word).toNat % 16) ∧
      ((0x4100 : Word).toNat / 4096 = 0x4 ∧ (0x4100 : Word).toNat / 256 % 16 ≠ 0) ∧
      ((0x8001 : Word).toNat / 4096 = 0x8 ∧ (0x8001 : Word).toNat % 16 ≠ 0) := by decide

theorem witness_LengthIsDecidedByTheTopNibble : decode [0xF7A4, 0x0050] = .ok (.jumpc0 7 10 0x0050, []) ∧
    decode [0xDFFF] = .ok (.trap 15 15 15, []) := by decide

end Sys2Proof.Tests
end

section
/-! SUPPORT. The sixteen registers as independent cells, as equalities of states (10_state.md section 2): the last write wins,
writing back what a register reads changes nothing, and a write passes a write of another register, of the pc and of the flags. -/

namespace Sys2Proof.Laws

open Sys2Proof.Machine

@[simp] theorem writeReg_writeReg_same (s : State) (i : Reg) (v v' : Word) :
    (s.writeReg i v).writeReg i v' = s.writeReg i v' := by
  by_cases hi : i = 0
  · subst hi; rfl
  · simp [State.writeReg, hi]

@[simp] theorem writeReg_readReg_self (s : State) (i : Reg) : s.writeReg i (s.readReg i) = s := by
  by_cases hi : i = 0
  · subst hi; rfl
  · simp [State.writeReg, State.readReg, hi]

theorem writeReg_comm (s : State) {i j : Reg} (v v' : Word) (hij : i ≠ j) :
    (s.writeReg i v).writeReg j v' = (s.writeReg j v').writeReg i v := by
  by_cases hi : i = 0
  · subst hi; rfl
  · by_cases hj : j = 0
    · subst hj; rfl
    · have hval : i.val ≠ j.val := Fin.val_ne_of_ne hij
      simp [State.writeReg, hi, hj, Vector.set_comm _ _ hval]

theorem writeReg_setPc (s : State) (target : Word) (i : Reg) (v : Word) :
    (s.setPc target).writeReg i v = (s.writeReg i v).setPc target := rfl

theorem writeReg_advance (s : State) (len : Word) (i : Reg) (v : Word) :
    (s.advance len).writeReg i v = (s.writeReg i v).advance len := rfl

/-- The flag update depends on the destination only through its being R15. -/
theorem writeFlags_of_ne (s : State) {d : Reg} (fs : FlagUpdate) (hd : d ≠ 15) :
    s.writeFlags d fs = s.writeReg 15 (mergeFlags (s.readReg 15) fs) :=
  if_neg hd

/-- A write of a register other than R15 passes the flag update of an instruction whose destination is not R15. -/
theorem writeReg_writeFlags (s : State) {d i : Reg} (fs : FlagUpdate) (v : Word) (hd : d ≠ 15) (hi : i ≠ 15) :
    (s.writeFlags d fs).writeReg i v = (s.writeReg i v).writeFlags d fs := by
  have hkept : (s.writeReg i v).readReg 15 = s.readReg 15 := by simp [readReg_writeReg, hi.symm]
  rw [writeFlags_of_ne _ _ hd, writeFlags_of_ne _ _ hd, hkept, writeReg_comm _ _ _ hi.symm]

end Sys2Proof.Laws
end

section
/-! SUPPORT. The destination R0 (10_state.md R12): each way an instruction with a destination ends leaves, for R0, what it leaves for
another destination with that register put back. -/

namespace Sys2Proof.Proofs

open Sys2Proof.Machine Sys2Proof.Laws

theorem result_zero_eq_restore (s : State) (d : Reg) (v len : Word) :
    s.result 0 v len = (s.result d v len).writeReg d (s.readReg d) := by
  simp [State.result, writeReg_advance]

/-- The end of `jal`. -/
theorem link_zero_eq_restore (s : State) (d : Reg) (v target : Word) :
    (s.writeReg 0 v).setPc target = ((s.writeReg d v).setPc target).writeReg d (s.readReg d) := by
  simp [writeReg_setPc]

/-- A result followed by its flag update, which is the same for R0 as for `d`. -/
theorem writeFlags_zero_eq_restore (s : State) {d : Reg} (v : Word) (fs : FlagUpdate) (hd : d ≠ 15) :
    (s.writeReg 0 v).writeFlags 0 fs = ((s.writeReg d v).writeFlags d fs).writeReg d (s.readReg d) := by
  have h0 : (0 : Reg) ≠ 15 := by decide
  rw [writeReg_writeFlags _ _ _ hd hd, writeReg_writeReg_same, writeReg_readReg_self, writeReg_zero,
    writeFlags_of_ne _ _ h0, writeFlags_of_ne _ _ hd]

theorem writeSum_zero_eq_restore (s : State) {d : Reg} (t : Sum) (hd : d ≠ 15) :
    s.writeSum 0 t = (s.writeSum d t).writeReg d (s.readReg d) := by
  rw [State.writeSum, State.writeSum, writeReg_advance, writeFlags_zero_eq_restore s t.r _ hd]

theorem writeProduct_zero_eq_restore (s : State) {d : Reg} (p : Int) (hd : d ≠ 15) :
    s.writeProduct 0 p = (s.writeProduct d p).writeReg d (s.readReg d) := by
  rw [State.writeProduct, State.writeProduct, writeReg_advance, writeFlags_zero_eq_restore s (low16 p) _ hd]

theorem writeQuotient_zero_eq_restore (s : State) {d : Reg} (A B : Word) (hd : d ≠ 15) :
    s.writeQuotient 0 A B = (s.writeQuotient d A B).writeReg d (s.readReg d) := by
  have h0 : (0 : Reg) ≠ flagReg := by decide
  unfold State.writeQuotient
  by_cases hB : B = 0
  · rw [if_pos hB, if_pos hB, writeReg_advance, writeReg_readReg_self]
  · rw [if_neg hB, if_neg hB, if_neg h0, if_neg hd, writeReg_advance, writeReg_comm _ _ _ (Ne.symm hd),
      writeReg_writeReg_same, writeReg_readReg_self, writeReg_zero]

/-- In `s`, the instruction `mk 0` answers what `mk d` answers with the content of `d` put back. -/
def ZeroDropsOnlyTheWrite (mk : Reg → Instr) (d : Reg) (s : State) : Prop :=
  ∃ t, exec (mk d) s = .next t ∧ exec (mk 0) s = .next (t.writeReg d (s.readReg d))

/-- Enough is that the state the instruction ends in, as a function `final` of its destination, has this for R0. -/
theorem zeroDropsOnlyTheWrite_of_end {mk : Reg → Instr} {d : Reg} {s : State} (final : Reg → State)
    (hexec : ∀ r, exec (mk r) s = .next (final r)) (hzero : final 0 = (final d).writeReg d (s.readReg d)) :
    ZeroDropsOnlyTheWrite mk d s :=
  ⟨final d, hexec d, by rw [hexec 0, hzero]⟩

/-- Settles O1: the fifteen instructions end in one of five ways (a sum, a product, a quotient, a plain result, a link), and
in each the write of Rd can be undone by putting its old content back. -/
theorem registerZeroReadsZeroAndDropsOnlyTheWrite : Obligations.RegisterZeroReadsZeroAndDropsOnlyTheWrite := by
  refine ⟨readReg_zero, writeReg_zero, fun d a b disp s _ hd => ?_⟩
  have hsum {mk} (t : Sum) (h : ∀ r, exec (mk r) s = .next (s.writeSum r t)) : ZeroDropsOnlyTheWrite mk d s :=
    zeroDropsOnlyTheWrite_of_end _ h (writeSum_zero_eq_restore s t hd)
  have hresult {mk} (v len : Word) (h : ∀ r, exec (mk r) s = .next (s.result r v len)) : ZeroDropsOnlyTheWrite mk d s :=
    zeroDropsOnlyTheWrite_of_end _ h (result_zero_eq_restore s d v len)
  simp only [List.forall_mem_cons]
  exact ⟨
    (hsum _ fun _ => rfl : ZeroDropsOnlyTheWrite (.add · a b) d s),
    (hsum _ fun _ => rfl : ZeroDropsOnlyTheWrite (.sub · a b) d s),
    (zeroDropsOnlyTheWrite_of_end _ (fun _ => rfl) (writeProduct_zero_eq_restore s _ hd) :
      ZeroDropsOnlyTheWrite (.mul · a b) d s),
    (zeroDropsOnlyTheWrite_of_end _ (fun _ => rfl) (writeQuotient_zero_eq_restore s _ _ hd) :
      ZeroDropsOnlyTheWrite (.div · a b) d s),
    (hsum _ fun _ => rfl : ZeroDropsOnlyTheWrite (.addc · a b) d s),
    (hresult _ _ fun _ => rfl : ZeroDropsOnlyTheWrite (.cmplt · a b) d s),
    (hresult _ _ fun _ => rfl : ZeroDropsOnlyTheWrite (.cmpeq · a b) d s),
    (hresult _ _ fun _ => rfl : ZeroDropsOnlyTheWrite (.cmpgt · a b) d s),
    (hresult _ _ fun _ => rfl : ZeroDropsOnlyTheWrite (.inv · a) d s),
    (hresult _ _ fun _ => rfl : ZeroDropsOnlyTheWrite (.and · a b) d s),
    (hresult _ _ fun _ => rfl : ZeroDropsOnlyTheWrite (.or · a b) d s),
    (hresult _ _ fun _ => rfl : ZeroDropsOnlyTheWrite (.xor · a b) d s),
    (hresult _ _ fun _ => rfl : ZeroDropsOnlyTheWrite (.lea · a disp) d s),
    (hresult _ _ fun _ => rfl : ZeroDropsOnlyTheWrite (.load · a disp) d s),
    (zeroDropsOnlyTheWrite_of_end _ (fun _ => rfl) (link_zero_eq_restore s d (s.nextPc 2) (s.ea disp a)) :
      ZeroDropsOnlyTheWrite (.jal · a disp) d s),
    List.forall_mem_nil _⟩

end Sys2Proof.Proofs
end

section
/-! SUPPORT. The length of an instruction (30_encoding.md R50): the top nibble of the first word fixes the format, the format fixes
whether the instruction has a displacement word, and that fixes how many words encode it. -/

namespace Sys2Proof.Laws

theorem formatOfWord_eq_rx_iff (w : Word) : formatOfWord w = .rx ↔ w.toNat / 4096 = 0xF := by
  have hw := w.isLt
  have hop : nibbleAt w 12 = 0xF ↔ w.toNat / 4096 = 0xF := by
    rw [Fin.ext_iff, nibbleAt_val]
    simp
    omega
  rw [← hop]
  by_cases h : nibbleAt w 12 = 0xF <;> simp [formatOfWord, h]

theorem displacementOf_of_decodeRRR {f : Fields} {i : Instr} (h : decodeRRR f = .ok i) : displacementOf i = none := by
  unfold decodeRRR at h
  split at h
  case h_5 | h_9 =>
    split at h <;> cases h
    rfl
  all_goals cases h <;> rfl

theorem displacementOf_of_decodeRX {f : Fields} {disp : Word} {i : Instr} (h : decodeRX f disp = .ok i) :
    displacementOf i = some disp := by
  unfold decodeRX at h
  split at h <;> cases h <;> rfl

theorem encode_length_of_displacementOf_none {i : Instr} (h : displacementOf i = none) : (encode i).length = 1 := by
  rw [encode, h]; rfl

theorem encode_length_of_displacementOf_some {i : Instr} {disp : Word} (h : displacementOf i = some disp) :
    (encode i).length = 2 := by
  rw [encode, h]; rfl

end Sys2Proof.Laws
end

section
/-! The length of an instruction is decided by its first word's top nibble (30_encoding.md R50). -/

namespace Sys2Proof.Proofs

open Sys2Proof.Laws

/-- Settles O53: a successful decoding is of one of the two formats, and each fixes both the words taken and the words encoded. -/
theorem lengthIsDecidedByTheTopNibble : Obligations.LengthIsDecidedByTheTopNibble := by
  refine ⟨fun w0 ws rest i h => ?_, fun i => ?_⟩
  · obtain ⟨_, _, hwords, hformat⟩ := decode_ok h
    cases hwords
    rcases hformat with ⟨hrrr, hi, rfl⟩ | ⟨hrx, w1, hi, rfl⟩
    · have hnibble : w0.toNat / 4096 ≠ 0xF := by
        rw [Ne, ← formatOfWord_eq_rx_iff, hrrr]; decide
      rw [if_neg hnibble]
      exact ⟨rfl, encode_length_of_displacementOf_none (displacementOf_of_decodeRRR hi)⟩
    · rw [if_pos ((formatOfWord_eq_rx_iff w0).mp hrx)]
      exact ⟨rfl, List.cons_ne_nil w1 rest, encode_length_of_displacementOf_some (displacementOf_of_decodeRX hi)⟩
  · cases hdisp : displacementOf i with
    | none => exact .inl (encode_length_of_displacementOf_none hdisp)
    | some disp => exact .inr (encode_length_of_displacementOf_some hdisp)

end Sys2Proof.Proofs
end

section
/-! SUPPORT. Floor division (40_arithmetic.md R76): the model's quotient and remainder are the library's floor division, where the
remainder lies, and the quotient against the rational and the truncated one. -/

namespace Sys2Proof.Laws

open Sys2Proof.Machine

theorem floorMod_eq_fmod (n m : Int) : floorMod n m = Int.fmod n m := (Int.fmod_def n m).symm

theorem floorDiv_neg_neg (n m : Int) : floorDiv (-n) (-m) = floorDiv n m := Int.neg_fdiv_neg n m

theorem floorMod_neg_neg (n m : Int) : floorMod (-n) (-m) = -floorMod n m := by
  simp only [floorMod_eq_fmod, Int.neg_fmod_neg]

theorem floorDiv_zero (m : Int) : floorDiv 0 m = 0 := Int.zero_fdiv m

theorem floorMod_zero (m : Int) : floorMod 0 m = 0 := by rw [floorMod_eq_fmod, Int.zero_fmod]

/-- The remainder by a positive divisor lies from 0 up to the divisor. -/
theorem floorMod_bounds_of_pos (n : Int) {m : Int} (hm : 0 < m) : 0 ≤ floorMod n m ∧ floorMod n m < m := by
  rw [floorMod_eq_fmod]
  exact ⟨Int.fmod_nonneg_of_pos n hm, Int.fmod_lt_of_pos n hm⟩

/-- The remainder by a negative divisor lies from 0 down to the divisor. -/
theorem floorMod_bounds_of_neg (n : Int) {m : Int} (hm : m < 0) : m < floorMod n m ∧ floorMod n m ≤ 0 := by
  have hpos := floorMod_bounds_of_pos (-n) (Int.neg_pos_of_neg hm)
  rw [floorMod_neg_neg] at hpos
  omega

theorem floorMod_eq_zero_or_sign (n : Int) {m : Int} (hm : m ≠ 0) :
    floorMod n m = 0 ∨ (0 < floorMod n m ↔ 0 < m) := by
  rcases lt_or_gt_of_ne hm with hneg | hpos
  · have := floorMod_bounds_of_neg n hneg
    omega
  · have := floorMod_bounds_of_pos n hpos
    omega

theorem abs_floorMod_lt (n : Int) {m : Int} (hm : m ≠ 0) : |floorMod n m| < |m| := by
  rcases lt_or_gt_of_ne hm with hneg | hpos
  · obtain ⟨hlow, hhigh⟩ := floorMod_bounds_of_neg n hneg
    rw [abs_of_nonpos hhigh, abs_of_neg hneg]
    exact neg_lt_neg hlow
  · obtain ⟨hlow, hhigh⟩ := floorMod_bounds_of_pos n hpos
    rwa [abs_of_nonneg hlow, abs_of_pos hpos]

theorem floorDiv_eq_floor_of_pos (n : Int) {m : Int} (hm : 0 < m) : floorDiv n m = ⌊(n : ℚ) / (m : ℚ)⌋ := by
  obtain ⟨k, rfl⟩ := Int.eq_ofNat_of_zero_le hm.le
  rw [floorDiv, Int.fdiv_eq_ediv_of_nonneg n hm.le, ← Rat.floor_intCast_div_natCast, Int.cast_natCast]

/-- For a negative divisor both sides are those of the negated operands. -/
theorem floorDiv_eq_floor (n : Int) {m : Int} (hm : m ≠ 0) : floorDiv n m = ⌊(n : ℚ) / (m : ℚ)⌋ := by
  rcases lt_or_gt_of_ne hm with hneg | hpos
  · rw [← floorDiv_neg_neg, floorDiv_eq_floor_of_pos (-n) (Int.neg_pos_of_neg hneg), Int.cast_neg, Int.cast_neg,
      neg_div_neg_eq]
  · exact floorDiv_eq_floor_of_pos n hpos

/-- An inexact quotient of operands of different signs is below 0, so that the floor is one below the truncation. -/
theorem floorDiv_eq_tdiv_sub_one {n m : Int} (hm : m ≠ 0) (hsign : n < 0 ↔ 0 < m) (hinexact : floorMod n m ≠ 0) :
    floorDiv n m = Int.tdiv n m - 1 := by
  have hdvd : ¬m ∣ n := by rwa [Int.dvd_iff_fmod_eq_zero, ← floorMod_eq_fmod]
  rw [floorDiv, Int.fdiv_eq_tdiv, if_neg hdvd]
  rcases lt_or_gt_of_ne hm with hneg | hpos
  · have hn : 0 ≤ n := by omega
    rw [if_pos hn, if_neg (not_le.mpr hneg)]
  · have hn : n < 0 := hsign.mpr hpos
    rw [if_neg (not_le.mpr hn), if_pos hpos.le, Int.sign_eq_one_of_pos hpos]

end Sys2Proof.Laws
end

section
/-! Floor division (40_arithmetic.md R76). -/

namespace Sys2Proof.Proofs

open Sys2Proof.Machine Sys2Proof.Laws

/-- Settles O10: the laws hold by the sign of the divisor; the examples and the table are evaluated. -/
theorem floorDivisionIsTheFloorOfTheQuotient : Obligations.FloorDivisionIsTheFloorOfTheQuotient := by
  refine ⟨fun n m hm => ?laws, by decide, by decide, by decide, by decide, by decide, by decide, fun m _ => ?zeroDividend,
    by decide⟩
  case laws =>
    exact ⟨floorDiv_eq_floor n hm, rfl, floorMod_eq_zero_or_sign n hm, abs_floorMod_lt n hm,
      fun hsign _ hinexact => floorDiv_eq_tdiv_sub_one hm hsign hinexact⟩
  case zeroDividend => exact ⟨floorDiv_zero m, floorMod_zero m⟩

end Sys2Proof.Proofs
end

section
/-! SUPPORT. What serves every one-word instruction with one result: the decoder on its word written as a number
(30_encoding.md R51), and the whole effect of ending by a result to Rd (10_state.md R12, R17, R19). -/

namespace Sys2Proof.Laws

open Sys2Proof.Machine

theorem decode_nibbleWord_rrr {op : Fin 16} (h : op ≠ 0xF) (d a b : Fin 16) (rest : List Word) :
    decode (nibbleWord op d a b :: rest) = (decodeRRR ⟨op, d, a, b⟩).map fun i => (i, rest) := by
  rw [nibbleWord_eq, decode_rrr h]

theorem sameMemory_result (s : State) (d : Reg) (v len : Word) : SameMemory s (s.result d v len) :=
  readMem_result s d v len

theorem sameHost_result (s : State) (d : Reg) (v len : Word) : SameHost s (s.result d v len) := ⟨rfl, rfl, rfl, rfl⟩

/-- In `s`, the instruction `i` of `len` words leaves `v` in Rd, and changes nothing else but the pc. -/
def WritesOnlyResult (i : Instr) (s : State) (d : Reg) (v len : Word) : Prop :=
  ∃ t, exec i s = .next t ∧ t.pc = s.pc + len ∧ (∀ j, t.readReg j = regsAfter s d v (s.readReg 15) j) ∧
    SameMemory s t ∧ SameHost s t

theorem writesOnlyResult_of_exec {i : Instr} {s : State} {d : Reg} {v len : Word}
    (hexec : exec i s = .next (s.result d v len)) : WritesOnlyResult i s d v len :=
  ⟨s.result d v len, hexec, result_pc s d v len, fun j => readReg_result s d j v len, sameMemory_result s d v len,
    sameHost_result s d v len⟩

end Sys2Proof.Laws
end

section
/-! The comparisons to a register (41_compare.md R86, R87, R88). -/

namespace Sys2Proof.Proofs

open Sys2Proof.Machine Sys2Proof.Laws

theorem boolWord_signed_lt (A B : Word) : boolWord (signed A < signed B) = if A.slt B then 1 else 0 := rfl

theorem boolWord_eq (A B : Word) : boolWord (A = B) = if A ^^^ B = 0 then 1 else 0 := by
  simp [boolWord, BitVec.xor_eq_zero_iff]

theorem cmplt_writesOnlyResult (d a b : Reg) (s : State) :
    WritesOnlyResult (.cmplt d a b) s d (if (s.readReg a).slt (s.readReg b) then 1 else 0) 1 := by
  rw [← boolWord_signed_lt]
  exact writesOnlyResult_of_exec rfl

theorem cmpeq_writesOnlyResult (d a b : Reg) (s : State) :
    WritesOnlyResult (.cmpeq d a b) s d (if s.readReg a ^^^ s.readReg b = 0 then 1 else 0) 1 := by
  rw [← boolWord_eq]
  exact writesOnlyResult_of_exec rfl

theorem cmpgt_writesOnlyResult (d a b : Reg) (s : State) :
    WritesOnlyResult (.cmpgt d a b) s d (if (s.readReg b).slt (s.readReg a) then 1 else 0) 1 := by
  rw [← boolWord_signed_lt]
  exact writesOnlyResult_of_exec rfl

/-- Settles O16: each comparison ends by a result to Rd, and the word of its Boolean is the one the statement gives: the signed
order is `BitVec.slt`, and two words are equal when their exclusive or is 0. -/
theorem compareToRegisterWritesABoolean : Obligations.CompareToRegisterWritesABoolean := by
  refine ⟨fun d a b rest => ?decoding, fun d a b s => ?effect⟩
  case decoding => refine ⟨?_, ?_, ?_⟩ <;> exact decode_nibbleWord_rrr (by decide) d a b rest
  case effect =>
    exact ⟨cmplt_writesOnlyResult d a b s, cmpeq_writesOnlyResult d a b s, cmpgt_writesOnlyResult d a b s⟩

end Sys2Proof.Proofs
end

section
/-! The bitwise operations on two registers (42_logic.md R96, R97, R98). -/

namespace Sys2Proof.Proofs

open Sys2Proof.Machine Sys2Proof.Laws

/-- In `s`, the one-word instruction `i` leaves in Rd the word whose every bit is `bitOp` of that bit of Ra and of Rb, and
changes nothing else but the pc. -/
def WritesOnlyBitwise (bitOp : Bool → Bool → Bool) (i : Instr) (s : State) (d a b : Reg) : Prop :=
  ∃ t v, exec i s = .next t ∧ t.pc = s.pc + 1 ∧
    (∀ n < 16, v.getLsbD n = bitOp ((s.readReg a).getLsbD n) ((s.readReg b).getLsbD n)) ∧
    (∀ j, t.readReg j = regsAfter s d v (s.readReg 15) j) ∧ SameMemory s t ∧ SameHost s t

theorem writesOnlyBitwise_of_result {bitOp : Bool → Bool → Bool} {i : Instr} {s : State} {d a b : Reg} {v : Word}
    (hresult : WritesOnlyResult i s d v 1)
    (hbits : ∀ n, v.getLsbD n = bitOp ((s.readReg a).getLsbD n) ((s.readReg b).getLsbD n)) :
    WritesOnlyBitwise bitOp i s d a b := by
  obtain ⟨t, hexec, hpc, hregs, hmem, hhost⟩ := hresult
  exact ⟨t, v, hexec, hpc, fun n _ => hbits n, hregs, hmem, hhost⟩

theorem and_writesOnlyBitwise (d a b : Reg) (s : State) : WritesOnlyBitwise and (.and d a b) s d a b :=
  writesOnlyBitwise_of_result (writesOnlyResult_of_exec rfl) fun _ => BitVec.getLsbD_and

theorem or_writesOnlyBitwise (d a b : Reg) (s : State) : WritesOnlyBitwise or (.or d a b) s d a b :=
  writesOnlyBitwise_of_result (writesOnlyResult_of_exec rfl) fun _ => BitVec.getLsbD_or

theorem xor_writesOnlyBitwise (d a b : Reg) (s : State) : WritesOnlyBitwise xor (.xor d a b) s d a b :=
  writesOnlyBitwise_of_result (writesOnlyResult_of_exec rfl) fun _ => BitVec.getLsbD_xor

/-- Settles O19: each instruction ends by a result to Rd, and the bits of that result are those of the word operation the
model uses. -/
theorem logicInstructionsActOnEveryBit : Obligations.LogicInstructionsActOnEveryBit := by
  refine ⟨fun d a b rest => ?decoding, fun d a b s => ?effect⟩
  case decoding => refine ⟨?_, ?_, ?_⟩ <;> exact decode_nibbleWord_rrr (by decide) d a b rest
  case effect =>
    exact ⟨and_writesOnlyBitwise d a b s, or_writesOnlyBitwise d a b s, xor_writesOnlyBitwise d a b s⟩

end Sys2Proof.Proofs
end

section
/-! SUPPORT. What serves the two-word instructions: the decoder on the first word written as a number and the displacement
(30_encoding.md R52, R58), and the one word a memory write changes (20_memory.md R32). -/

namespace Sys2Proof.Laws

open Sys2Proof.Machine

theorem decode_nibbleWord_rx (d a b : Fin 16) (disp : Word) (rest : List Word) :
    decode (nibbleWord 0xF d a b :: disp :: rest) = (decodeRX ⟨0xF, d, a, b⟩ disp).map fun i => (i, rest) := by
  rw [nibbleWord_eq, decode_rx rfl]

/-- Reading any word after writing any. -/
theorem readMem_writeMem (s : State) (addr other v : Word) :
    (s.writeMem addr v).readMem other = if other = addr then v else s.readMem other := by
  simp only [State.readMem, writeMem_mem, read_write, BitVec.toNat_inj]

end Sys2Proof.Laws
end

section
/-! `lea` and `store` (44_memory_access.md R120, R122). -/

namespace Sys2Proof.Proofs

open Sys2Proof.Machine Sys2Proof.Laws

theorem lea_writesOnlyResult (d a : Reg) (disp : Word) (s : State) :
    WritesOnlyResult (.lea d a disp) s d (disp + s.readReg a) 2 := by
  rw [← ea_eq]
  exact writesOnlyResult_of_exec rfl

/-- Settles O22: `lea` ends by a result to Rd, and that result is the wrapped sum. -/
theorem leaWritesTheEffectiveAddress : Obligations.LeaWritesTheEffectiveAddress :=
  fun d a disp s => ⟨decode_nibbleWord_rx d a 0x0 disp, lea_writesOnlyResult d a disp s⟩

theorem exec_store (d a : Reg) (disp : Word) (s : State) :
    exec (.store d a disp) s = .next ((s.writeMem (disp + s.readReg a) (s.readReg d)).advance 2) := by
  rw [← ea_eq]
  rfl

/-- Settles O24: `store` is one memory write at the wrapped sum, and the pc two on. -/
theorem storeWritesRdAtTheEffectiveAddress : Obligations.StoreWritesRdAtTheEffectiveAddress := by
  refine fun d a disp s => ⟨decode_nibbleWord_rx d a 0x2 disp, _, exec_store d a disp s, ?pc, ?regs, ?mem, ?host⟩
  case pc => rw [advance_pc, writeMem_pc]
  case regs => exact fun j => by rw [readReg_advance, readReg_writeMem]
  case mem => exact fun addr => by rw [readMem_advance, readMem_writeMem]
  case host => exact ⟨rfl, rfl, rfl, rfl⟩

end Sys2Proof.Proofs
end

section
/-! SUPPORT. What serves the RX jumps but `jal`: the whole effect of ending by a branch (45_jumps.md R136, 10_state.md R19), and the two kinds
of test as bits, one bit counted from the most significant end (R131, R132) or all sixteen (R133, R134). -/

namespace Sys2Proof.Laws

open Sys2Proof.Machine

/-- In `s`, the instruction `i` leaves `target` in the pc and changes nothing else. -/
def SetsOnlyPc (i : Instr) (s : State) (target : Word) : Prop :=
  ∃ t, exec i s = .next t ∧ t.pc = target ∧ SameRegs s t ∧ SameMemory s t ∧ SameHost s t

theorem sameHost_branch (s : State) (taken : Bool) (target : Word) : SameHost s (s.branch taken target) :=
  ⟨branch_halted s taken target, branch_fault s taken target, branch_inputPos s taken target, branch_output s taken target⟩

/-- A branch to the effective address taken when `p` holds. -/
theorem setsOnlyPc_of_branch_iff {i : Instr} {s : State} {a : Reg} {disp : Word} {taken : Bool} {p : Prop} [Decidable p]
    (hexec : exec i s = .next (s.branch taken (s.ea disp a))) (htaken : taken = true ↔ p) :
    SetsOnlyPc i s (if p then disp + s.readReg a else s.pc + 2) := by
  refine ⟨_, hexec, ?pc, readReg_branch s taken _, readMem_branch s taken _, sameHost_branch s taken _⟩
  case pc => simp only [branch_pc, ea_eq, htaken]

/-- A branch to the effective address taken when `p` fails. -/
theorem setsOnlyPc_of_branch_iff_not {i : Instr} {s : State} {a : Reg} {disp : Word} {taken : Bool} {p : Prop} [Decidable p]
    (hexec : exec i s = .next (s.branch taken (s.ea disp a))) (htaken : taken = true ↔ ¬p) :
    SetsOnlyPc i s (if p then s.pc + 2 else disp + s.readReg a) := by
  rw [← ite_not]
  exact setsOnlyPc_of_branch_iff hexec htaken

theorem ppcBit_eq_one_iff (w : Word) (k : BitSel) : ppcBit w k = 1 ↔ w.getMsbD k.val = true := by
  rw [ppcBit_eq]
  cases w.getMsbD k.val <;> decide

theorem ppcBit_eq_zero_iff (w : Word) (k : BitSel) : ppcBit w k = 0 ↔ ¬w.getMsbD k.val = true := by
  rw [ppcBit_eq]
  cases w.getMsbD k.val <;> decide

theorem eq_zero_iff_not_exists_bit (w : Word) : w = 0 ↔ ¬∃ n < 16, w.getLsbD n = true := by
  rw [BitVec.eq_of_getLsbD_eq_iff]
  simp

end Sys2Proof.Laws
end

section
/-! The jumps without a link (45_jumps.md R130 to R134). -/

namespace Sys2Proof.Proofs

open Sys2Proof.Machine Sys2Proof.Laws

theorem jump_setsOnlyPc (d a : Reg) (disp : Word) (s : State) : SetsOnlyPc (.jump d a disp) s (disp + s.readReg a) :=
  setsOnlyPc_of_branch_iff (p := True) rfl (iff_of_true rfl trivial)

/-- Settles O27: `jump` is a branch always taken. -/
theorem jumpOnlySetsThePc : Obligations.JumpOnlySetsThePc :=
  fun d a disp s => ⟨decode_nibbleWord_rx d a 0x3 disp, jump_setsOnlyPc d a disp s⟩

theorem jumpc0_setsOnlyPc (k : BitSel) (a : Reg) (disp : Word) (s : State) :
    SetsOnlyPc (.jumpc0 k a disp) s (if (s.readReg 15).getMsbD k.val then s.pc + 2 else disp + s.readReg a) :=
  setsOnlyPc_of_branch_iff_not rfl (decide_eq_true_iff.trans (ppcBit_eq_zero_iff _ k))

theorem jumpc1_setsOnlyPc (k : BitSel) (a : Reg) (disp : Word) (s : State) :
    SetsOnlyPc (.jumpc1 k a disp) s (if (s.readReg 15).getMsbD k.val then disp + s.readReg a else s.pc + 2) :=
  setsOnlyPc_of_branch_iff rfl (decide_eq_true_iff.trans (ppcBit_eq_one_iff _ k))

/-- Settles O28: both are branches on the word of bit `k`, which is 1 when the bit counted from the top is set, else 0. -/
theorem jumpOnFlagBitCountsFromTheMostSignificantEnd : Obligations.JumpOnFlagBitCountsFromTheMostSignificantEnd :=
  fun k a disp s =>
    ⟨fun rest => ⟨decode_nibbleWord_rx k a 0x4 disp rest, decode_nibbleWord_rx k a 0x5 disp rest⟩,
      jumpc0_setsOnlyPc k a disp s, jumpc1_setsOnlyPc k a disp s⟩

theorem jumpf_setsOnlyPc (d a : Reg) (disp : Word) (s : State) :
    SetsOnlyPc (.jumpf d a disp) s
      (if ∃ n < 16, (s.readReg d).getLsbD n = true then s.pc + 2 else disp + s.readReg a) :=
  setsOnlyPc_of_branch_iff_not rfl (decide_eq_true_iff.trans (eq_zero_iff_not_exists_bit _))

theorem jumpt_setsOnlyPc (d a : Reg) (disp : Word) (s : State) :
    SetsOnlyPc (.jumpt d a disp) s
      (if ∃ n < 16, (s.readReg d).getLsbD n = true then disp + s.readReg a else s.pc + 2) :=
  setsOnlyPc_of_branch_iff rfl (decide_eq_true_iff.trans (not_iff_comm.mp (eq_zero_iff_not_exists_bit _).symm))

/-- Settles O29: both are branches on Rd being 0, and a word is 0 when none of its sixteen bits is set. -/
theorem jumpOnRegisterTestsAllSixteenBits : Obligations.JumpOnRegisterTestsAllSixteenBits :=
  fun d a disp s =>
    ⟨fun rest => ⟨decode_nibbleWord_rx d a 0x6 disp rest, decode_nibbleWord_rx d a 0x7 disp rest⟩,
      jumpf_setsOnlyPc d a disp s, jumpt_setsOnlyPc d a disp s⟩

end Sys2Proof.Proofs
end

section
/-! SUPPORT. Everything an instruction can do, said once (10_state.md R20): each ends in one of eight ways, and the way fixes
which registers it may write (10_state.md, table after R13) and how long it is (30_encoding.md R50); and what a step answers in
each kind of state. -/

namespace Sys2Proof.Laws

open Sys2Proof.Machine

/-- The ways an instruction ends: the state `t` it leaves from `s`, its row of the table of writers, and its length. -/
inductive ExecEnd (i : Instr) (s : State) : State → Prop where
  /-- `add`, `sub`, `mul`, `addc`: a result to Rd and then flags to R15. -/
  | flagged (d : Reg) (v : Word) (fs : FlagUpdate) (hwritten : writtenRegs i = [d, 15]) (hlen : (encode i).length = 1) :
      ExecEnd i s (((s.writeReg d v).writeFlags d fs).advance 1)
  /-- `div`. -/
  | quotient (d : Reg) (A B : Word) (hwritten : writtenRegs i = [d, 15]) (hlen : (encode i).length = 1) :
      ExecEnd i s (s.writeQuotient d A B)
  /-- `cmp`: flags alone. -/
  | compared (fs : FlagUpdate) (hwritten : writtenRegs i = [15]) (hlen : (encode i).length = 1) :
      ExecEnd i s ((s.writeFlags 0 fs).advance 1)
  /-- The instructions that write one result and no flag. -/
  | result (d : Reg) (v : Word) (n : Nat) (hwritten : writtenRegs i = [d]) (hlen : (encode i).length = n) :
      ExecEnd i s (s.result d v (BitVec.ofNat 16 n))
  | store (d a : Reg) (disp : Word) (hi : i = .store d a disp) :
      ExecEnd i s ((s.writeMem (s.ea disp a) (s.readReg d)).advance 2)
  /-- The five jumps without a link. -/
  | branch (k a : Fin 16) (disp : Word) (taken : Bool) (hwritten : writtenRegs i = []) (hlen : (encode i).length = 2)
      (hjump : i ∈ [.jump k a disp, .jumpc0 k a disp, .jumpc1 k a disp, .jumpf k a disp, .jumpt k a disp]) :
      ExecEnd i s (s.branch taken (s.ea disp a))
  | link (d a : Reg) (disp : Word) (hi : i = .jal d a disp) :
      ExecEnd i s ((s.writeReg d (s.nextPc 2)).setPc (s.ea disp a))
  | routine (d a b : Reg) (hi : i = .trap d a b) :
      ExecEnd i s (callRoutine (s.readReg d) (s.readReg a) (s.readReg b) s.pc (s.advance 1))

/-- Every instruction has a next state, and that state is one of the eight ends. -/
theorem exists_exec_execEnd (i : Instr) (s : State) : ∃ t, exec i s = .next t ∧ ExecEnd i s t :=
  match i with
  | .add d _ _ | .sub d _ _ | .mul d _ _ | .addc d _ _ => ⟨_, rfl, .flagged d _ _ rfl rfl⟩
  | .div d _ _ => ⟨_, rfl, .quotient d _ _ rfl rfl⟩
  | .cmp _ _ => ⟨_, rfl, .compared _ rfl rfl⟩
  | .cmplt d _ _ | .cmpeq d _ _ | .cmpgt d _ _ | .inv d _ | .and d _ _ | .or d _ _ | .xor d _ _ =>
    ⟨_, rfl, .result d _ 1 rfl rfl⟩
  | .lea d _ _ | .load d _ _ => ⟨_, rfl, .result d _ 2 rfl rfl⟩
  | .store d a disp => ⟨_, rfl, .store d a disp rfl⟩
  | .jump k a disp | .jumpc0 k a disp | .jumpc1 k a disp | .jumpf k a disp | .jumpt k a disp =>
    ⟨_, rfl, .branch k a disp _ rfl rfl (by simp)⟩
  | .jal d a disp => ⟨_, rfl, .link d a disp rfl⟩
  | .trap d a b => ⟨_, rfl, .routine d a b rfl⟩

theorem execEnd_of_exec {i : Instr} {s t : State} (h : exec i s = .next t) : ExecEnd i s t := by
  obtain ⟨u, hexec, hend⟩ := exists_exec_execEnd i s
  rw [hexec] at h
  cases h
  exact hend

/-! ### What a step answers -/

theorem step_of_halted {s : State} (h : s.halted = true) : step s = .fault .halted := by
  rw [step, if_pos h]

theorem step_of_faulted {s : State} {record : FaultRecord} (hhalted : s.halted = false) (hfault : s.fault = some record) :
    step s = .fault (.faulted record) := by
  simp [step, hhalted, hfault]

theorem step_of_fetchInstr_error {s : State} {e : DecodeError} (hrun : s.Running) (h : s.fetchInstr = .error e) :
    step s = .next (s.raise (.illegalInstruction s.pc (s.readMem s.pc))) := by
  simp [step, hrun.1, hrun.2, h]

theorem step_of_fetchInstr_ok {s : State} {i : Instr} (hrun : s.Running) (h : s.fetchInstr = .ok i) :
    step s = exec i s := by
  simp [step, hrun.1, hrun.2, h]

end Sys2Proof.Laws
end

section
/-! SUPPORT. The service routines (43_trap.md R105 to R110): the routine of each number, what every routine leaves unchanged, and
which may halt or fault. -/

namespace Sys2Proof.Laws

open Sys2Proof.Machine

theorem callRoutine_exit (addr size trapAddr : Word) (s : State) : callRoutine 0 addr size trapAddr s = s.halt := rfl

theorem callRoutine_read (addr size trapAddr : Word) (s : State) :
    callRoutine 1 addr size trapAddr s = s.acceptInput addr size.toNat := rfl

theorem callRoutine_write (addr size trapAddr : Word) (s : State) :
    callRoutine 2 addr size trapAddr s = s.emitBlock addr size.toNat := rfl

theorem callRoutine_unknown {code : Word} (h : 2 < code.toNat) (addr size trapAddr : Word) (s : State) :
    callRoutine code addr size trapAddr s = s.raise (.unknownTrap code trapAddr) := by
  rcases callRoutine_cases code addr size trapAddr s with ⟨rfl, -⟩ | ⟨rfl, -⟩ | ⟨rfl, -⟩ | ⟨-, e⟩
  case inr.inr.inr => exact e
  all_goals exact absurd h (by decide)

/-- A block of the host's words leaves in its buffer the words drawn, each at its index, and no other word changed. -/
theorem readMem_acceptInput (s : State) (base addr : Word) (n : Nat) (hn : n ≤ 65536) :
    (s.acceptInput base n).readMem addr =
      if bufferIndex base addr < n then Config.hostInput (s.inputPos + bufferIndex base addr) else s.readMem addr := by
  have hlen : (s.inputWords n).length ≤ 65536 := (inputWords_length s n).trans_le hn
  rw [State.readMem, acceptInput_mem, read_writeBlock _ _ _ _ hlen, inputWords_getElem?]
  split <;> rfl

/-- No service routine writes a register (43_trap.md R110). -/
@[simp] theorem callRoutine_regs (code addr size trapAddr : Word) (s : State) :
    (callRoutine code addr size trapAddr s).regs = s.regs := by
  rcases callRoutine_cases code addr size trapAddr s with ⟨-, e⟩ | ⟨-, e⟩ | ⟨-, e⟩ | ⟨-, e⟩ <;> rw [e] <;> rfl

theorem readReg_callRoutine (code addr size trapAddr : Word) (s : State) (j : Reg) :
    (callRoutine code addr size trapAddr s).readReg j = s.readReg j := by
  unfold State.readReg
  rw [callRoutine_regs]

@[simp] theorem callRoutine_pc (code addr size trapAddr : Word) (s : State) :
    (callRoutine code addr size trapAddr s).pc = s.pc := by
  rcases callRoutine_cases code addr size trapAddr s with ⟨-, e⟩ | ⟨-, e⟩ | ⟨-, e⟩ | ⟨-, e⟩ <;> rw [e] <;> rfl

theorem sameMemory_callRoutine {code addr size trapAddr : Word} {s : State} (h : code ≠ 1) :
    SameMemory s (callRoutine code addr size trapAddr s) := by
  intro other
  rcases callRoutine_cases code addr size trapAddr s with ⟨-, e⟩ | ⟨h1, -⟩ | ⟨-, e⟩ | ⟨-, e⟩
  case inr.inl => exact absurd h1 h
  all_goals rw [e]; rfl

theorem callRoutine_wf_mem {code addr size trapAddr : Word} {s : State} (h : Memory.wf s.mem) :
    Memory.wf (callRoutine code addr size trapAddr s).mem := by
  rcases callRoutine_cases code addr size trapAddr s with ⟨-, e⟩ | ⟨-, e⟩ | ⟨-, e⟩ | ⟨-, e⟩ <;> rw [e]
  case inr.inl => exact wf_writeBlock addr _ h
  all_goals exact h

/-- Exit halts and an unknown number faults: no routine does both. -/
theorem callRoutine_halted_or_fault {code addr size trapAddr : Word} {s : State} (hrun : s.Running) :
    (callRoutine code addr size trapAddr s).halted = false ∨ (callRoutine code addr size trapAddr s).fault = none := by
  obtain ⟨hhalted, hfault⟩ := hrun
  rcases callRoutine_cases code addr size trapAddr s with ⟨-, e⟩ | ⟨-, e⟩ | ⟨-, e⟩ | ⟨-, e⟩ <;> rw [e]
  case inl => exact .inr hfault
  all_goals exact .inl hhalted

/-- What the service routine that a `trap` calls may have done to `halted` and `fault`. -/
theorem callRoutine_ends {code addr size trapAddr : Word} {s : State} (hrun : s.Running) :
    ((callRoutine code addr size trapAddr s).halted = true → code = 0) ∧
    ∀ record, (callRoutine code addr size trapAddr s).fault = some record →
      2 < code.toNat ∧ record = .unknownTrap code trapAddr := by
  obtain ⟨hhalted, hfault⟩ := hrun
  rcases callRoutine_cases code addr size trapAddr s with ⟨h, e⟩ | ⟨-, e⟩ | ⟨-, e⟩ | ⟨h, e⟩ <;> rw [e]
  case inl => exact ⟨fun _ => h, by simp [hfault]⟩
  case inr.inr.inr => exact ⟨by simp [hhalted], fun _ hrecord => ⟨h, (Option.some.inj hrecord).symm⟩⟩
  all_goals exact ⟨by simp [hhalted], by simp [hfault]⟩

end Sys2Proof.Laws
end

section
/-! SUPPORT. One register at a time: another than the one written, and the entries of `regsAfter` (10_state.md R12, R16). -/

namespace Sys2Proof.Laws

open Sys2Proof.Machine

theorem readReg_writeReg_of_ne (s : State) {i j : Reg} (v : Word) (h : j ≠ i) : (s.writeReg i v).readReg j = s.readReg j := by
  rw [readReg_writeReg, if_neg h]
  split
  case isTrue h0 => rw [h0, readReg_zero]
  case isFalse => rfl

theorem regsAfter_of_ne {s : State} {d j : Reg} (v r15 : Word) (hd : j ≠ d) (h15 : j ≠ 15) :
    regsAfter s d v r15 j = s.readReg j := by
  by_cases h0 : j = 0 <;> simp [regsAfter, h0, hd, h15]

theorem regsAfter_self {s : State} {d : Reg} (v r15 : Word) (hd : d ≠ 0) : regsAfter s d v r15 d = v := by
  simp [regsAfter, hd]

theorem regsAfter_flagReg {s : State} {d : Reg} {v r15 : Word} (hd : d ≠ 15) : regsAfter s d v r15 15 = r15 := by
  rw [regsAfter, if_neg (by decide), if_neg hd.symm, if_pos rfl]

end Sys2Proof.Laws
end

section
/-! The invariant is kept by every step (10_state.md sections 2, 5, 6): memory stays canonical, R0's entry stays 0, and no one
step both halts and faults. -/

namespace Sys2Proof.Proofs

open Sys2Proof.Machine Sys2Proof.Laws

theorem writeQuotient_entry_zero (s : State) (d : Reg) (A B : Word) (h : s.regs[(0 : Fin 16)] = 0) :
    (s.writeQuotient d A B).regs[(0 : Fin 16)] = 0 := by
  unfold State.writeQuotient
  split_ifs
  · exact h
  · exact writeReg_entry_zero _ _ _ h
  · exact writeReg_entry_zero _ _ _ (writeReg_entry_zero _ _ _ h)

theorem execEnd_wf_mem {i : Instr} {s t : State} (hend : ExecEnd i s t) (h : Memory.wf s.mem) : Memory.wf t.mem := by
  cases hend with
  | store d a disp => exact wf_write _ h (s.ea disp a).isLt
  | routine d a b => exact callRoutine_wf_mem h
  | _ => simpa using h

theorem execEnd_entry_zero {i : Instr} {s t : State} (hend : ExecEnd i s t) (h : s.regs[(0 : Fin 16)] = 0) :
    t.regs[(0 : Fin 16)] = 0 := by
  cases hend with
  | flagged d v fs => exact writeFlags_entry_zero _ _ _ (writeReg_entry_zero _ _ _ h)
  | quotient d A B => exact writeQuotient_entry_zero _ _ _ _ h
  | compared fs => exact writeFlags_entry_zero _ _ _ h
  | result d v n => exact writeReg_entry_zero _ _ _ h
  | link d a disp => exact writeReg_entry_zero _ _ _ h
  | store d a disp => exact h
  | branch k a disp taken => rwa [branch_regs]
  | routine d a b => rwa [callRoutine_regs]

/-- Only a service routine touches the host. -/
theorem execEnd_routine_or_sameHost {i : Instr} {s t : State} (hend : ExecEnd i s t) :
    (∃ d a b, i = .trap d a b ∧
      t = callRoutine (s.readReg d) (s.readReg a) (s.readReg b) s.pc (s.advance 1)) ∨ SameHost s t := by
  cases hend with
  | routine d a b hi => exact .inl ⟨d, a, b, hi, rfl⟩
  | _ => exact .inr (by simp [SameHost])

theorem execEnd_halted_or_fault {i : Instr} {s t : State} (hend : ExecEnd i s t) (hrun : s.Running) :
    t.halted = false ∨ t.fault = none := by
  rcases execEnd_routine_or_sameHost hend with ⟨d, a, b, -, rfl⟩ | ⟨hhalted, -⟩
  · exact callRoutine_halted_or_fault hrun
  · exact .inl (hhalted.trans hrun.1)

/-- Settles O46: raising at an illegal word keeps memory and registers and the machine not halted; and each of the eight ends
of an instruction keeps the three parts. -/
theorem everyStepKeepsTheInvariant : Obligations.EveryStepKeepsTheInvariant := by
  intro s t ⟨hwf, hzero, _⟩ hstep
  obtain ⟨hrun, ⟨_, _, rfl⟩ | ⟨i, _, hexec⟩⟩ := step_next hstep
  · exact ⟨hwf, hzero, .inl hrun.1⟩
  · have hend := execEnd_of_exec hexec
    exact ⟨execEnd_wf_mem hend hwf, execEnd_entry_zero hend hzero, execEnd_halted_or_fault hend hrun⟩

end Sys2Proof.Proofs
end

section
/-! SUPPORT. The decoder and the encoder field by field (30_encoding.md R56 to R61): the two maps undo `fieldsOf` and are undone by it,
so that the first words that decode are the defined ones. -/

namespace Sys2Proof.Laws

open Sys2Proof.Machine

/-! ### From an instruction to its words and back -/

/-- The family Encoding for every instruction. -/
theorem encoding_statement (i : Instr) : Encoding.Statement i := by
  cases i <;> exact Encoding.of_fields rfl rfl

theorem fieldsOf_op_eq_iff (i : Instr) : (fieldsOf i).op = 0xF ↔ (displacementOf i).isSome = true := by
  obtain ⟨-, -, hformat⟩ := encoding_statement i
  rw [formatOfWord_packWord] at hformat
  by_cases hop : (fieldsOf i).op = 0xF <;> by_cases hsome : (displacementOf i).isSome = true <;> simp_all

/-- The map of an instruction's format gives it back. -/
theorem decode_fieldsOf (i : Instr) :
    (displacementOf i).elim (decodeRRR (fieldsOf i)) (decodeRX (fieldsOf i)) = .ok i := by
  cases i <;> rfl

theorem decode_encode_append (i : Instr) (rest : List Word) : decode (encode i ++ rest) = .ok (i, rest) := by
  have hop := fieldsOf_op_eq_iff i
  have hmap := decode_fieldsOf i
  unfold encode
  cases hdisp : displacementOf i with
  | none =>
    rw [hdisp] at hop hmap
    exact (decode_rrr (by simpa using hop) rest).trans (congrArg (Except.map fun j => (j, rest)) hmap)
  | some disp =>
    rw [hdisp] at hop hmap
    exact (decode_rx (by simpa using hop) disp rest).trans (congrArg (Except.map fun j => (j, rest)) hmap)

/-! ### From words to an instruction and back -/

theorem fields_eq_of_op {f : Fields} {k : Fin 16} {n : Nat} (h : f.op.val = n) (hk : k.val = n) :
    ⟨k, f.d, f.a, f.b⟩ = f := by
  obtain rfl : k = f.op := Fin.ext (hk.trans h.symm)
  rfl

theorem fields_eq_of_op_b {f : Fields} {k : Fin 16} {n : Nat} (hop : f.op = 0xF) (h : f.b.val = n) (hk : k.val = n) :
    ⟨0xF, f.d, f.a, k⟩ = f := by
  obtain rfl : k = f.b := Fin.ext (hk.trans h.symm)
  rw [← hop]

theorem fieldsOf_of_decodeRRR {f : Fields} {i : Instr} (h : decodeRRR f = .ok i) : fieldsOf i = f := by
  unfold decodeRRR at h
  split at h
  case h_5 hop =>
    split at h <;> cases h
    next hd => exact (congrArg (Fields.mk 0x4 · f.a f.b) hd.symm).trans (fields_eq_of_op hop rfl)
  case h_9 hop =>
    split at h <;> cases h
    next hb => exact (congrArg (Fields.mk 0x8 f.d f.a) hb.symm).trans (fields_eq_of_op hop rfl)
  all_goals
    cases h <;> exact fields_eq_of_op (by assumption) rfl

theorem fieldsOf_of_decodeRX {f : Fields} {disp : Word} {i : Instr} (hop : f.op = 0xF) (h : decodeRX f disp = .ok i) :
    fieldsOf i = f := by
  unfold decodeRX at h
  split at h <;> cases h <;> exact fields_eq_of_op_b hop (by assumption) rfl

theorem formatOfWord_eq_rx_iff_op (w : Word) : formatOfWord w = .rx ↔ (fieldsOfWord w).op = 0xF := by
  by_cases h : nibbleAt w 12 = 0xF <;> simp [formatOfWord, fieldsOfWord, h]

/-- A successful decoding is of the instruction's own first word. -/
theorem fieldsOf_of_decode {w0 : Word} {ws rest : List Word} {i : Instr} (h : decode (w0 :: ws) = .ok (i, rest)) :
    fieldsOf i = fieldsOfWord w0 := by
  obtain ⟨_, _, hwords, ⟨-, hi, -⟩ | ⟨hrx, w1, hi, -⟩⟩ := decode_ok h
  · cases hwords
    exact fieldsOf_of_decodeRRR hi
  · cases hwords
    exact fieldsOf_of_decodeRX ((formatOfWord_eq_rx_iff_op _).mp hrx) hi

theorem encode_append_of_decode {ws rest : List Word} {i : Instr} (h : decode ws = .ok (i, rest)) :
    encode i ++ rest = ws := by
  obtain ⟨w0, ws', rfl, hformat⟩ := decode_ok h
  rw [encode, fieldsOf_of_decode h, packWord_fieldsOfWord]
  rcases hformat with ⟨-, hi, rfl⟩ | ⟨-, w1, hi, rfl⟩
  · rw [displacementOf_of_decodeRRR hi]; rfl
  · rw [displacementOf_of_decodeRX hi]; rfl

/-! ### The defined first words (30_encoding.md R58) -/

theorem wellFormed_iff (f : Fields) :
    f.wellFormed = true ↔ f.op ≠ 0xE ∧ (f.op ≠ 0x4 ∨ f.d = 0) ∧ (f.op ≠ 0x8 ∨ f.b = 0) ∧ (f.op ≠ 0xF ∨ f.b ≤ 0x8) := by
  simp [Fields.wellFormed, Fields.opcodeDefined, Fields.cmpRdZero, Fields.invRbZero, Fields.subOpcodeDefined, and_assoc]

theorem wellFormed_of_decode {w0 : Word} {ws rest : List Word} {i : Instr} (h : decode (w0 :: ws) = .ok (i, rest)) :
    (fieldsOfWord w0).wellFormed = true := by
  rw [← fieldsOf_of_decode h]
  exact (encoding_statement i).1

theorem exists_decodeRRR_of_wellFormed {f : Fields} (hwf : f.wellFormed = true) (hop : f.op ≠ 0xF) :
    ∃ i, decodeRRR f = .ok i := by
  obtain ⟨hE, hcmp, hinv, -⟩ := (wellFormed_iff f).mp hwf
  unfold decodeRRR
  split
  case h_5 h4 =>
    have hd : f.d = 0 := hcmp.resolve_left (not_not_intro (Fin.ext h4))
    exact ⟨_, if_pos hd⟩
  case h_9 h8 =>
    have hb : f.b = 0 := hinv.resolve_left (not_not_intro (Fin.ext h8))
    exact ⟨_, if_pos hb⟩
  case h_15 =>
    have hltF : f.op.val < 0xF := lt_of_le_of_ne (Nat.le_of_lt_succ f.op.isLt) (Fin.val_ne_of_ne hop)
    have hneE : f.op.val ≠ 0xE := Fin.val_ne_of_ne hE
    simp only [imp_false] at *
    omega
  all_goals exact ⟨_, rfl⟩

theorem exists_decodeRX_of_wellFormed {f : Fields} (hwf : f.wellFormed = true) (hop : f.op = 0xF) (disp : Word) :
    ∃ i, decodeRX f disp = .ok i := by
  obtain ⟨-, -, -, hsub⟩ := (wellFormed_iff f).mp hwf
  have hb : f.b ≤ 0x8 := hsub.resolve_left (not_not_intro hop)
  unfold decodeRX
  split
  case h_10 =>
    have hle : f.b.val ≤ 0x8 := hb
    simp only [imp_false] at *
    omega
  all_goals exact ⟨_, rfl⟩

/-- A defined first word decodes, when the words its format asks for are there. -/
theorem exists_decode_of_wellFormed {w0 : Word} {ws : List Word} (hwf : (fieldsOfWord w0).wellFormed = true)
    (hlen : (fieldsOfWord w0).op = 0xF → ws ≠ []) : ∃ i rest, decode (w0 :: ws) = .ok (i, rest) := by
  rw [← packWord_fieldsOfWord w0]
  by_cases hop : (fieldsOfWord w0).op = 0xF
  · obtain ⟨w1, ws', rfl⟩ := List.exists_cons_of_ne_nil (hlen hop)
    obtain ⟨i, hi⟩ := exists_decodeRX_of_wellFormed hwf hop w1
    exact ⟨i, ws', by rw [decode_rx hop, hi]; rfl⟩
  · obtain ⟨i, hi⟩ := exists_decodeRRR_of_wellFormed hwf hop
    exact ⟨i, ws, by rw [decode_rrr hop, hi]; rfl⟩

end Sys2Proof.Laws
end

section
/-! The encoding obligations (30_encoding.md). -/

namespace Sys2Proof.Proofs

open Sys2Proof.Machine Sys2Proof.Laws

/-- Settles O50: the first word packs the instruction's nibbles, and the map of its format gives it back; that no instruction is
ill formed makes the premise idle. -/
theorem decodeOfEncodeIsTheInstruction : Obligations.DecodeOfEncodeIsTheInstruction :=
  fun i rest _ => decode_encode_append i rest

/-- Settles O51: the first word packs the nibbles of what it decodes to, and the displacement is the word after it. -/
theorem encodeOfDecodeIsTheWords : Obligations.EncodeOfDecodeIsTheWords :=
  fun _ _ _ h => encode_append_of_decode h

theorem fieldsOfWord_op_eq {w : Word} {k : Fin 16} (h : w.toNat / 4096 = k.val) : (fieldsOfWord w).op = k := by
  have hk := k.isLt
  exact Fin.ext (by rw [fieldsOfWord, nibbleAt_val]; omega)

/-- A one-word first word that its map refuses is refused whatever follows it. -/
theorem decode_error_of_decodeRRR {w0 : Word} {e : DecodeError} (hop : (fieldsOfWord w0).op ≠ 0xF)
    (h : decodeRRR (fieldsOfWord w0) = .error e) (rest : List Word) : decode (w0 :: rest) = .error e := by
  rw [← packWord_fieldsOfWord w0, decode_rrr hop, h]
  rfl

theorem decodeRRR_undefined {f : Fields} (hop : f.op = 0xE) : decodeRRR f = .error .undefinedOpcode := by
  simp [decodeRRR, hop]

theorem decodeRRR_cmp {f : Fields} (hop : f.op = 0x4) (hd : f.d ≠ 0) : decodeRRR f = .error .cmpRdReserved := by
  simp [decodeRRR, hop, hd]

theorem decodeRRR_inv {f : Fields} (hop : f.op = 0x8) (hb : f.b ≠ 0) : decodeRRR f = .error .invRbReserved := by
  simp [decodeRRR, hop, hb]

/-- Settles O52: a first word that decodes has the nibbles of an instruction, and a defined one decodes when a word follows; the
four refusals are told apart by the top nibble. -/
theorem decoderAcceptsExactlyTheDefinedWords : Obligations.DecoderAcceptsExactlyTheDefinedWords := by
  intro w0 w1 rest
  have hd : (fieldsOfWord w0).d.val = w0.toNat / 256 % 16 := nibbleAt_val w0 8
  have hb : (fieldsOfWord w0).b.val = w0.toNat % 16 := (nibbleAt_val w0 0).trans (by simp)
  refine ⟨⟨?accepted, ?accepts⟩, ?opcode, ?subOpcode, ?cmpRd, ?invRb⟩
  case accepted => exact fun ⟨_, _, h⟩ => wellFormed_of_decode h
  case accepts => exact fun hwf => exists_decode_of_wellFormed hwf fun _ => List.cons_ne_nil _ _
  case opcode =>
    intro htop
    have hop := fieldsOfWord_op_eq (k := 0xE) htop
    exact decode_error_of_decodeRRR (by rw [hop]; decide) (decodeRRR_undefined hop) rest
  case subOpcode =>
    intro htop hsub
    have hle : ¬(fieldsOfWord w0).b ≤ 0x8 := by rw [Fin.le_iff_val_le_val, hb]; exact Nat.not_le.mpr hsub
    rw [← packWord_fieldsOfWord w0]
    exact decode_rx_undefined (fieldsOfWord_op_eq (k := 0xF) htop) hle rest
  case cmpRd =>
    intro htop hne
    have hop := fieldsOfWord_op_eq (k := 0x4) htop
    have hd0 : (fieldsOfWord w0).d ≠ 0 := Fin.ne_of_val_ne (hd ▸ hne)
    exact decode_error_of_decodeRRR (by rw [hop]; decide) (decodeRRR_cmp hop hd0) rest
  case invRb =>
    intro htop hne
    have hop := fieldsOfWord_op_eq (k := 0x8) htop
    have hb0 : (fieldsOfWord w0).b ≠ 0 := Fin.ne_of_val_ne (hb ▸ hne)
    exact decode_error_of_decodeRRR (by rw [hop]; decide) (decodeRRR_inv hop hb0) rest

/-- Settles O54, by evaluating the decoder on each tabled word. -/
theorem sampleWordsDecodeAsTabled : Obligations.SampleWordsDecodeAsTabled := by
  unfold Obligations.SampleWordsDecodeAsTabled
  and_intros <;> decide

end Sys2Proof.Proofs
end

section
/-! SUPPORT. Fetching and decoding together (10_state.md R20, 30_encoding.md R61): a fetch succeeds exactly at a defined first word. -/

namespace Sys2Proof.Laws

open Sys2Proof.Machine

theorem fetchWords_eq_cons (s : State) : ∃ ws, s.fetchWords = s.readMem s.pc :: ws := by
  unfold State.fetchWords
  split <;> exact ⟨_, rfl⟩

/-- Of a defined RX word the second word is fetched. -/
theorem fetchWords_of_wellFormed_rx {s : State} (hwf : (fieldsOfWord (s.readMem s.pc)).wellFormed = true)
    (hop : (fieldsOfWord (s.readMem s.pc)).op = 0xF) : s.fetchWords = [s.readMem s.pc, s.readMem (s.pc + 1)] := by
  have htakes : takesSecondWord (s.readMem s.pc) = true := by
    simp [takesSecondWord, hwf, (formatOfWord_eq_rx_iff_op _).mpr hop]
  rw [State.fetchWords, if_pos htakes]

theorem wellFormed_of_fetchInstr_ok {s : State} {i : Instr} (h : s.fetchInstr = .ok i) :
    (fieldsOfWord (s.readMem s.pc)).wellFormed = true := by
  obtain ⟨rest, hdecode⟩ := fetchInstr_ok.mp h
  obtain ⟨ws, hwords⟩ := fetchWords_eq_cons s
  rw [hwords] at hdecode
  exact wellFormed_of_decode hdecode

theorem exists_fetchInstr_ok_of_wellFormed {s : State} (hwf : (fieldsOfWord (s.readMem s.pc)).wellFormed = true) :
    ∃ i, s.fetchInstr = .ok i := by
  obtain ⟨ws, hwords⟩ := fetchWords_eq_cons s
  have hlen : (fieldsOfWord (s.readMem s.pc)).op = 0xF → ws ≠ [] := by
    intro hop hnil
    rw [fetchWords_of_wellFormed_rx hwf hop, hnil] at hwords
    cases hwords
  obtain ⟨i, rest, hdecode⟩ := exists_decode_of_wellFormed hwf hlen
  exact ⟨i, fetchInstr_ok.mpr ⟨rest, by rw [hwords, hdecode]⟩⟩

theorem exists_fetchInstr_error_iff (s : State) :
    (∃ e, s.fetchInstr = .error e) ↔ (fieldsOfWord (s.readMem s.pc)).wellFormed = false := by
  rw [← Bool.not_eq_true]
  refine ⟨fun ⟨e, he⟩ hwf => ?_, fun hwf => ?_⟩
  · obtain ⟨i, hi⟩ := exists_fetchInstr_ok_of_wellFormed hwf
    rw [hi] at he
    cases he
  · cases hf : s.fetchInstr with
    | error e => exact ⟨e, rfl⟩
    | ok i => exact absurd (wellFormed_of_fetchInstr_ok hf) hwf

end Sys2Proof.Laws
end

section
/-! The step (10_state.md R20, R22, 60_exceptions.md R151, R153): what it fetches, executes and refuses, and how a run ends. -/

namespace Sys2Proof.Proofs

open Sys2Proof.Machine Sys2Proof.Laws

/-- Settles O36: neither stop applies to a running machine, and the fetched words decode to the instruction. -/
theorem stepRunsTheDecodedInstruction : Obligations.StepRunsTheDecodedInstruction :=
  fun _ _ rest hrun h => step_of_fetchInstr_ok hrun (fetchInstr_ok.mpr ⟨rest, h⟩)

/-- Settles O37: the two tests for a second word agree, and the next address is the wrapped sum. -/
theorem fetchTakesWordsAtThePcAndAfterIt : Obligations.FetchTakesWordsAtThePcAndAfterIt := by
  intro s
  have hnext : s.pc + 1 = BitVec.ofNat 16 (s.pc.toNat + 1) := by
    rw [BitVec.ofNat_add, BitVec.ofNat_toNat, BitVec.setWidth_eq]; rfl
  rw [State.fetchWords, ← hnext]
  exact if_congr (takesSecondWord_iff _) rfl rfl

/-- Settles O38: at an ill-formed first word the fetch is refused, and the step raises. -/
theorem stepOnIllegalWordOnlyRaises : Obligations.StepOnIllegalWordOnlyRaises := by
  intro s hrun hill
  obtain ⟨e, he⟩ := (exists_fetchInstr_error_iff s).mpr hill
  exact step_of_fetchInstr_error hrun he

/-- Settles O39: the state is halted, or it is not and has a record. -/
theorem haltedOrFaultedMachineTakesNoStep : Obligations.HaltedOrFaultedMachineTakesNoStep := by
  intro s hstopped
  cases hhalted : s.halted with
  | true => exact ⟨.halted, step_of_halted hhalted, fun _ => rfl, fun _ h => Bool.noConfusion h⟩
  | false =>
    cases hfault : s.fault with
    | none => exact absurd ⟨hhalted, hfault⟩ hstopped
    | some record =>
      exact ⟨.faulted record, step_of_faulted hhalted hfault, fun h => Bool.noConfusion h,
        fun _ _ h => congrArg Fault.faulted (Option.some.inj h)⟩

/-- Settles O40: every instruction has an end, and a running step raises or executes. -/
theorem everyRunningStateHasANextState : Obligations.EveryRunningStateHasANextState := by
  have hexec (i : Instr) (s : State) : ∃ t, exec i s = .next t := (exists_exec_execEnd i s).imp fun _ => And.left
  refine ⟨hexec, fun s hrun => ?_⟩
  cases hf : s.fetchInstr with
  | error e => exact ⟨_, step_of_fetchInstr_error hrun hf⟩
  | ok i => rw [step_of_fetchInstr_ok hrun hf]; exact hexec i s

/-- Settles O41: a step raises at an illegal word, or executes; and of what is executed only a `trap` can halt or fault. -/
theorem runEndsOnlyByExitOrFault : Obligations.RunEndsOnlyByExitOrFault := by
  intro s t hrun hstep
  obtain ⟨⟨hhalted, hfault⟩, ⟨e, he, rfl⟩ | ⟨i, hi, hexec⟩⟩ := step_next hstep
  case inl =>
    have hill := (exists_fetchInstr_error_iff s).mp ⟨e, he⟩
    refine ⟨by simp [hhalted], by simp, ?_⟩
    rintro addr w0 hrecord
    cases hrecord
    exact ⟨rfl, rfl, hill⟩
  case inr =>
    rcases execEnd_routine_or_sameHost (execEnd_of_exec hexec) with ⟨d, a, b, rfl, rfl⟩ | ⟨hsameHalted, hsameFault, -⟩
    · obtain ⟨hexit, hunknown⟩ := callRoutine_ends (code := s.readReg d) (addr := s.readReg a) (size := s.readReg b)
        (trapAddr := s.pc) (s := s.advance 1) hrun
      refine ⟨fun h => ⟨d, a, b, hi, hexit h⟩, fun code addr h => ?_, fun addr w0 h => ?_⟩
      · obtain ⟨hcode, hrecord⟩ := hunknown _ h
        cases hrecord
        exact ⟨d, a, b, hi, rfl, hcode, rfl⟩
      · cases (hunknown _ h).2
    · exact ⟨by simp [hsameHalted, hhalted], by simp [hsameFault, hfault], by simp [hsameFault, hfault]⟩

end Sys2Proof.Proofs
end

section
/-! What every instruction leaves unchanged (10_state.md table after R13, R19, R21; 43_trap.md R110, R111), read off the eight ways an
instruction ends. -/

namespace Sys2Proof.Proofs

open Sys2Proof.Machine Sys2Proof.Laws

/-! ### Registers -/

theorem execEnd_readReg_of_notMem {i : Instr} {s t : State} (hend : ExecEnd i s t) {j : Reg} (hj : j ∉ writtenRegs i) :
    t.readReg j = s.readReg j := by
  cases hend with
  | flagged d v fs hwritten =>
    simp only [hwritten, List.mem_cons, List.not_mem_nil, or_false, not_or] at hj
    rw [readReg_advance, readReg_writeReg_writeFlags, regsAfter_of_ne _ _ hj.1 hj.2]
  | quotient d A B hwritten =>
    simp only [hwritten, List.mem_cons, List.not_mem_nil, or_false, not_or] at hj
    rw [readReg_writeQuotient, regsAfter_of_ne _ _ hj.1 hj.2, ite_self]
  | compared fs hwritten =>
    simp only [hwritten, List.mem_singleton] at hj
    rw [readReg_advance, readReg_writeFlags, if_neg fun h => hj h.1]
  | result d v n hwritten =>
    simp only [hwritten, List.mem_singleton] at hj
    rw [State.result, readReg_advance, readReg_writeReg_of_ne s v hj]
  | link d a disp hi =>
    subst hi
    rw [readReg_setPc, readReg_writeReg_of_ne s _ (List.ne_of_not_mem_cons hj)]
  | store d a disp => rw [readReg_advance, readReg_writeMem]
  | branch k a disp taken => rw [readReg_branch]
  | routine d a b => rw [readReg_callRoutine, readReg_advance]

/-- Settles O4: each end of an instruction writes only registers of its row. -/
theorem onlyTheTabledRegistersChange : Obligations.OnlyTheTabledRegistersChange :=
  fun _ _ _ hexec _ hj => execEnd_readReg_of_notMem (execEnd_of_exec hexec) hj

/-! ### The host interface and memory -/

/-- Settles O42: of the eight ends only the service routine's touches the host. -/
theorem onlyTrapTouchesTheHost : Obligations.OnlyTrapTouchesTheHost := by
  intro i s t hnotTrap hexec
  rcases execEnd_routine_or_sameHost (execEnd_of_exec hexec) with ⟨d, a, b, hi, -⟩ | hhost
  · exact absurd hi (hnotTrap d a b)
  · exact hhost

/-- Settles O43: of the eight ends only the store's and, in a service call, Read's writes memory. -/
theorem onlyStoreAndReadWriteMemory : Obligations.OnlyStoreAndReadWriteMemory := by
  intro i s t hnotStore hnotRead hexec addr
  cases execEnd_of_exec hexec with
  | store d a disp hi => exact absurd hi (hnotStore d a disp)
  | routine d a b hi => exact sameMemory_callRoutine (s := s.advance 1) (hnotRead d a b hi) addr
  | _ => simp

/-! ### The program counter -/

/-- Settles O44: the five jumps without a link go to the effective address or on, `jal` always goes there, and every other end
advances by the length of the encoding. -/
theorem onlyJumpsLeaveTheSequence : Obligations.OnlyJumpsLeaveTheSequence := by
  intro i s t hexec
  cases execEnd_of_exec hexec with
  | flagged d v fs _ hlen => exact .inl (by simp [hlen])
  | quotient d A B _ hlen => exact .inl (by simp [hlen])
  | compared fs _ hlen => exact .inl (by simp [hlen])
  | result d v n _ hlen => exact .inl (by simp [hlen])
  | store d a disp hi => subst hi; exact .inl rfl
  | routine d a b hi => subst hi; exact .inl (callRoutine_pc ..)
  | branch k a disp taken _ hlen hjump =>
    cases taken with
    | false => exact .inl (by simp [hlen])
    | true => exact .inr ⟨k, a, disp, List.mem_append_left [Instr.jal k a disp] hjump, ea_eq s disp a⟩
  | link d a disp hi => exact .inr ⟨d, a, disp, by simp [hi], ea_eq s disp a⟩

end Sys2Proof.Proofs
end

section
/-! What was written to the output never influences a step (43_trap.md R108, R111). -/

namespace Sys2Proof.Proofs

open Sys2Proof.Machine Sys2Proof.Laws

/-- The state with `earlier` before its output. -/
def prependOutput (s : State) (earlier : List Word) : State := { s with output := earlier ++ s.output }

/-! Each end of an instruction that tests something passes `prependOutput`; of the others it is so by computation. -/

theorem writeFlags_prependOutput (s : State) (d : Reg) (fs : FlagUpdate) (earlier : List Word) :
    (prependOutput s earlier).writeFlags d fs = prependOutput (s.writeFlags d fs) earlier := by
  unfold State.writeFlags
  split <;> rfl

theorem writeQuotient_prependOutput (s : State) (d : Reg) (A B : Word) (earlier : List Word) :
    (prependOutput s earlier).writeQuotient d A B = prependOutput (s.writeQuotient d A B) earlier := by
  unfold State.writeQuotient
  split_ifs <;> rfl

theorem branch_prependOutput (s : State) (taken : Bool) (target : Word) (earlier : List Word) :
    (prependOutput s earlier).branch taken target = prependOutput (s.branch taken target) earlier := by
  cases taken <;> rfl

theorem emitBlock_prependOutput (s : State) (base : Word) (n : Nat) (earlier : List Word) :
    (prependOutput s earlier).emitBlock base n = prependOutput (s.emitBlock base n) earlier := by
  simp [prependOutput, State.emitBlock]

theorem callRoutine_prependOutput (code addr size trapAddr : Word) (s : State) (earlier : List Word) :
    callRoutine code addr size trapAddr (prependOutput s earlier) =
      prependOutput (callRoutine code addr size trapAddr s) earlier := by
  unfold callRoutine
  split_ifs
  case pos => rfl
  case pos => rfl
  case pos => exact emitBlock_prependOutput s addr size.toNat earlier
  case neg => rfl

/-- In `s`, the instruction `i` does the same with `earlier` before the output. -/
def IgnoresOutput (i : Instr) (s : State) (earlier : List Word) : Prop :=
  ∃ t, exec i s = .next t ∧ exec i (prependOutput s earlier) = .next (prependOutput t earlier)

theorem ignoresOutput (i : Instr) (s : State) (earlier : List Word) : IgnoresOutput i s earlier := by
  have hflagged (d : Reg) (v : Word) (fs : FlagUpdate) :
      (((prependOutput s earlier).writeReg d v).writeFlags d fs).advance 1 =
        prependOutput (((s.writeReg d v).writeFlags d fs).advance 1) earlier :=
    congrArg (State.advance · 1) (writeFlags_prependOutput (s.writeReg d v) d fs earlier)
  exact match i with
  | .add d _ _ | .sub d _ _ | .mul d _ _ | .addc d _ _ => ⟨_, rfl, congrArg _ (hflagged d _ _)⟩
  | .div d _ _ => ⟨_, rfl, congrArg _ (writeQuotient_prependOutput s d _ _ earlier)⟩
  | .cmp _ _ => ⟨_, rfl, congrArg _ (hflagged 0 0 _)⟩
  | .jump _ _ _ | .jumpc0 _ _ _ | .jumpc1 _ _ _ | .jumpf _ _ _ | .jumpt _ _ _ =>
    ⟨_, rfl, congrArg _ (branch_prependOutput s _ _ earlier)⟩
  | .trap _ _ _ => ⟨_, rfl, congrArg _ (callRoutine_prependOutput _ _ _ _ (s.advance 1) earlier)⟩
  | .cmplt _ _ _ | .cmpeq _ _ _ | .cmpgt _ _ _ | .inv _ _ | .and _ _ _ | .or _ _ _ | .xor _ _ _ | .lea _ _ _ | .load _ _ _
  | .store _ _ _ | .jal _ _ _ => ⟨_, rfl, rfl⟩

/-- Settles O45: a stopped machine answers the same, an illegal word is the same word, and an instruction does the same. -/
theorem outputNeverFeedsBack : Obligations.OutputNeverFeedsBack := by
  intro s earlier
  have hfold : ({ s with output := earlier ++ s.output } : State) = prependOutput s earlier := rfl
  rw [hfold]
  cases hhalted : s.halted with
  | true => rw [step_of_halted hhalted, step_of_halted (s := prependOutput s earlier) hhalted]
  | false =>
    cases hfault : s.fault with
    | some record =>
      rw [step_of_faulted hhalted hfault, step_of_faulted (s := prependOutput s earlier) hhalted hfault]
    | none =>
      have hrun : s.Running := ⟨hhalted, hfault⟩
      cases hf : s.fetchInstr with
      | error e =>
        rw [step_of_fetchInstr_error hrun hf, step_of_fetchInstr_error (s := prependOutput s earlier) hrun hf]
        rfl
      | ok i =>
        obtain ⟨t, hexec, hexec'⟩ := ignoresOutput i s earlier
        rw [step_of_fetchInstr_ok hrun hf, step_of_fetchInstr_ok (s := prependOutput s earlier) hrun hf, hexec, hexec']
        rfl

end Sys2Proof.Proofs
end

section
/-! SUPPORT. Canonical memory as a function of the address (10_state.md section 5; Log 1): its cells are the addresses that read
other than unwritten, so that memories that read the same are the same list. -/

namespace Sys2Proof.Laws

open Sys2Proof.Machine

theorem read_of_mem {m : Memory} (hwf : Memory.wf m) {c : Cell} (hc : c ∈ m) : Memory.read m c.1 = c.2 := by
  induction m with
  | nil => cases hc
  | cons e m ih =>
    obtain ⟨hfirst, -⟩ := List.pairwise_cons.mp hwf.1
    rcases List.mem_cons.mp hc with rfl | hc
    · exact if_pos rfl
    · exact (if_neg (hfirst c hc).ne).trans (ih (wf_tail hwf) hc)

theorem mem_of_read {m : Memory} {a : Nat} (h : Memory.read m a ≠ Config.unwrittenWord) : (a, Memory.read m a) ∈ m := by
  induction m with
  | nil => exact absurd rfl h
  | cons e m ih =>
    obtain ⟨k, v⟩ := e
    by_cases hk : k = a
    · simp [Memory.read, hk]
    · simp only [Memory.read, if_neg hk] at h ⊢
      exact List.mem_cons_of_mem _ (ih h)

theorem mem_iff_read {m : Memory} (hwf : Memory.wf m) (c : Cell) :
    c ∈ m ↔ c.1 < 65536 ∧ c.2 ≠ Config.unwrittenWord ∧ Memory.read m c.1 = c.2 := by
  refine ⟨fun hc => ?_, fun ⟨_, hne, hread⟩ => ?_⟩
  · obtain ⟨hlt, hne⟩ := hwf.2 c hc
    exact ⟨hlt, hne, read_of_mem hwf hc⟩
  · have hc := mem_of_read (hread.symm ▸ hne)
    rwa [hread] at hc

/-- Lists by strictly rising address with the same cells are equal. -/
theorem wf_ext {m m' : Memory} (hwf : Memory.wf m) (hwf' : Memory.wf m')
    (hread : ∀ a < 65536, Memory.read m a = Memory.read m' a) : m = m' := by
  have hmem (c : Cell) : c ∈ m ↔ c ∈ m' := by
    rw [mem_iff_read hwf, mem_iff_read hwf']
    exact and_congr_right fun hlt => by rw [hread c.1 hlt]
  have hnodup {n : Memory} (h : Memory.wf n) : n.Nodup := h.1.imp fun hlt heq => hlt.ne (congrArg Prod.fst heq)
  have hperm := (List.perm_ext_iff_of_nodup (hnodup hwf) (hnodup hwf')).mpr hmem
  exact hperm.eq_of_pairwise (fun _ _ _ _ hlt hgt => absurd hlt hgt.asymm) hwf.1 hwf'.1

/-- States that differ in memory at most, both canonical and reading the same words, are equal. -/
theorem eq_of_sameMemory {s t : State} (hrest : t = { s with mem := t.mem }) (hwf : Memory.wf s.mem)
    (hwf' : Memory.wf t.mem) (hmem : SameMemory s t) : t = s := by
  have hcells : t.mem = s.mem := wf_ext hwf' hwf fun a ha => by
    simpa [State.readMem, Nat.mod_eq_of_lt ha] using hmem (BitVec.ofNat 16 a)
  rw [hrest, hcells]

end Sys2Proof.Laws
end

section
/-! The words of memory as independent cells (20_memory.md sections 2 and 5). -/

namespace Sys2Proof.Proofs

open Sys2Proof.Machine Sys2Proof.Laws

/-- Settles O21: the two lists have the same cells in the same order. -/
theorem canonicalMemoriesAreEqualWhenTheyReadEqual : Obligations.CanonicalMemoriesAreEqualWhenTheyReadEqual :=
  fun _ _ hwf hwf' hread => wf_ext hwf hwf' hread

/-- Settles O20: both sides of each equation are canonical and read the same at every address. -/
theorem memoryWritesCommuteAndTheLastWins : Obligations.MemoryWritesCommuteAndTheLastWins := by
  intro s addr addr' v v' hwf
  have hwf_write {t : State} (ht : Memory.wf t.mem) (a w : Word) : Memory.wf (t.writeMem a w).mem := wf_write w ht a.isLt
  refine ⟨?lastWins, fun hne => ?commute, ?writeBack, ?readBack⟩
  case lastWins =>
    refine eq_of_sameMemory rfl (hwf_write hwf _ _) (hwf_write (hwf_write hwf _ _) _ _) fun other => ?_
    by_cases h : other = addr <;> simp [readMem_writeMem, h]
  case commute =>
    refine eq_of_sameMemory rfl (hwf_write (hwf_write hwf _ _) _ _) (hwf_write (hwf_write hwf _ _) _ _) fun other => ?_
    by_cases h : other = addr <;> simp [readMem_writeMem, h, hne]
  case writeBack =>
    refine eq_of_sameMemory rfl hwf (hwf_write hwf _ _) fun other => ?_
    by_cases h : other = addr <;> simp [readMem_writeMem, h]
  case readBack => rw [readMem_writeMem, if_pos rfl]

end Sys2Proof.Proofs
end

section
/-! `load`, `inv` and `jal` (44_memory_access.md R121, 42_logic.md R95, 45_jumps.md R135), and pairs of instructions that meet at an address:
a store and the load or the fetch of its word, a call and its return. -/

namespace Sys2Proof.Proofs

open Sys2Proof.Machine Sys2Proof.Laws

/-- Settles O23: `load` ends by a result to Rd, and that result is the word at the wrapped sum. -/
theorem loadWritesTheWordAtTheEffectiveAddress : Obligations.LoadWritesTheWordAtTheEffectiveAddress := by
  intro d a disp s
  rw [← ea_eq]
  exact writesOnlyResult_of_exec (d := d) rfl

theorem not_eq_allOnes_sub (w : Word) : ~~~w = 0xFFFF - w := by
  apply BitVec.eq_of_toNat_eq
  rw [BitVec.toNat_not]
  bv_omega

/-- Settles O18: `inv` ends by a result to Rd, and the complement of a word is its distance from the word of all ones. -/
theorem invComplementsEveryBit : Obligations.InvComplementsEveryBit := by
  refine fun d a s => ⟨fun rest => ?decoding, fun b rest hb => ?reserved, ?effect⟩
  case decoding => exact decode_nibbleWord_rrr (by decide) d a 0 rest
  case reserved => rw [decode_nibbleWord_rrr (by decide), decodeRRR_inv rfl hb]; rfl
  case effect =>
    rw [← not_eq_allOnes_sub]
    exact writesOnlyResult_of_exec (i := .inv d a) rfl

theorem exec_jal (d a : Reg) (disp : Word) (s : State) :
    exec (.jal d a disp) s = .next ((s.writeReg d (s.pc + 2)).setPc (disp + s.readReg a)) := by
  rw [← ea_eq]
  rfl

/-- Settles O30: the link is one register write, whose registers are those of an instruction with one result. -/
theorem jalLinksAndJumpsThroughTheOldRegister : Obligations.JalLinksAndJumpsThroughTheOldRegister := by
  intro d a disp s
  refine ⟨_, exec_jal d a disp s, setPc_pc .., fun j => ?_, fun _ => rfl, ⟨rfl, rfl, rfl, rfl⟩⟩
  exact readReg_result s d j (s.pc + 2) 2

/-- Settles O31: the link register holds the address after the call, and the jump adds 0 to it. -/
theorem jumpThroughTheLinkReturns : Obligations.JumpThroughTheLinkReturns := by
  intro n a r disp s hn
  obtain ⟨t, hjal, -, hregs, -⟩ := jalLinksAndJumpsThroughTheOldRegister n a disp s
  obtain ⟨v, hjump, hpc, -⟩ := jump_setsOnlyPc r n 0 t
  refine ⟨t, v, hjal, hjump, ?_⟩
  rw [hpc, hregs, regsAfter_self _ _ hn]
  exact BitVec.zero_add _

/-- Settles O25: the load's effective address is the store's, since the store writes no register. -/
theorem storeThenLoadReturnsTheWord : Obligations.StoreThenLoadReturnsTheWord := by
  intro d a r c disp disp' s hr hsame
  obtain ⟨-, t, hstore, -, hregs, hmem, -⟩ := storeWritesRdAtTheEffectiveAddress d a disp s
  obtain ⟨v, hload, -, hregs', -⟩ := loadWritesTheWordAtTheEffectiveAddress r c disp' t
  refine ⟨t, v, hstore, hload, ?_⟩
  rw [hregs', regsAfter_self _ _ hr, hregs, hmem, if_pos hsame]

/-- Settles O26: the first word fetched is the one at the pc, which the store left at its own address. -/
theorem storedWordIsFetchedNext : Obligations.StoredWordIsFetchedNext := by
  intro d a disp s hnext
  obtain ⟨-, t, hstore, hpc, -, hmem, -⟩ := storeWritesRdAtTheEffectiveAddress d a disp s
  obtain ⟨ws, hwords⟩ := fetchWords_eq_cons t
  refine ⟨t, hstore, ?_⟩
  rw [hwords, List.head?_cons, hmem, hpc, if_pos hnext.symm]

end Sys2Proof.Proofs
end

section
/-! The service routines (43_trap.md R105 to R110). -/

namespace Sys2Proof.Proofs

open Sys2Proof.Machine Sys2Proof.Laws

/-- The routine that a `trap` calls works on the state with the pc advanced. -/
theorem exec_trap (d a b : Reg) (s : State) :
    exec (.trap d a b) s =
      .next (callRoutine (s.readReg d) (s.readReg a) (s.readReg b) s.pc (s.advance 1)) := rfl

/-- Settles O32: routine 0 only halts. -/
theorem trapExitHaltsAndChangesNothingElse : Obligations.TrapExitHaltsAndChangesNothingElse := by
  intro d a b s hcode
  rw [exec_trap, hcode, callRoutine_exit]
  exact ⟨_, rfl, rfl, rfl, fun _ => rfl, fun _ => rfl, rfl, rfl, rfl⟩

/-- Settles O33: routine 1 is one block write of the host's words, and a register's size is below 65536. -/
theorem trapReadFillsExactlyTheBuffer : Obligations.TrapReadFillsExactlyTheBuffer := by
  intro d a b s hcode
  rw [exec_trap, hcode, callRoutine_read]
  exact ⟨_, rfl, rfl, fun _ => rfl, fun addr => readMem_acceptInput _ _ addr _ (s.readReg b).isLt.le, rfl, rfl, rfl, rfl⟩

/-- Settles O34: the output is the old one followed by the words of the buffer. -/
theorem trapWriteAppendsTheBuffer : Obligations.TrapWriteAppendsTheBuffer := by
  intro d a b s hcode
  rw [exec_trap, hcode, callRoutine_write]
  refine ⟨_, rfl, rfl, fun _ => rfl, fun _ => rfl, ?length, fun n hn => ?old, fun n hn => ?new, rfl, rfl, rfl⟩
  case length => simp [readBlock_length]
  case old => simp [List.getElem?_append_left hn]
  case new =>
    rw [emitBlock_output, advance_output, List.getElem?_append_right (Nat.le_add_right _ n), Nat.add_sub_cancel_left]
    exact readBlock_getElem? s.mem (s.readReg a) (s.readReg b).toNat n hn

/-- Settles O35: a number above 2 is that of no routine, and the call only raises. -/
theorem trapUnknownRoutineRaisesUnknownTrap : Obligations.TrapUnknownRoutineRaisesUnknownTrap := by
  intro d a b s hcode
  rw [exec_trap, callRoutine_unknown hcode]
  exact ⟨_, rfl, rfl, rfl, fun _ => rfl, fun _ => rfl, rfl, rfl, rfl⟩

end Sys2Proof.Proofs
end

section
/-! Reset and launch (10_state.md section 8, 70_reset_and_hazards.md R170, R171), and the registers as cells. -/

namespace Sys2Proof.Proofs

open Sys2Proof.Machine Sys2Proof.Laws

/-- Settles O2: the cell laws of a register, R0 included where they hold. -/
theorem registerWritesCommuteAndTheLastWins : Obligations.RegisterWritesCommuteAndTheLastWins :=
  fun s i j v v' =>
    ⟨writeReg_writeReg_same s i v v', writeReg_comm s v v', writeReg_readReg_self s i,
      fun hi => by rw [readReg_writeReg, if_neg hi, if_pos rfl]⟩

/-- Settles O47: no cell is listed, and R0's entry is the initial word. -/
theorem resetHasTheInvariant : Obligations.ResetHasTheInvariant := ⟨wf_nil, rfl, .inl rfl⟩

theorem readReg_reset (j : Reg) : State.reset.readReg j = 0 := by
  by_cases hj : j = 0 <;> simp [State.readReg, State.reset, Config.initReg, hj]

theorem readMem_reset (addr : Word) : State.reset.readMem addr = 0 := rfl

/-- Settles O48: the fields of reset, and what is read of them. -/
theorem resetStateIsAsDecided : Obligations.ResetStateIsAsDecided :=
  ⟨rfl, rfl, rfl, rfl, readReg_reset, readMem_reset⟩

theorem readMem_launch {img : List Word} (hlen : img.length ≤ 65536) (addr : Word) :
    (State.launch img).readMem addr = img.getD addr.toNat 0 := by
  have hindex : bufferIndex Config.loadAddress addr = addr.toNat := congrArg BitVec.toNat (BitVec.sub_zero addr)
  rw [State.readMem, State.launch, loadImage_mem, read_writeBlock _ _ _ _ hlen, hindex, List.getD_eq_getElem?_getD]
  rfl

theorem launch_inv (img : List Word) : (State.launch img).Inv :=
  ⟨wf_writeBlock Config.loadAddress img wf_nil, rfl, .inl rfl⟩

/-- Settles O49: placing the image is one block write into the memory of reset. -/
theorem launchPlacesTheImage : Obligations.LaunchPlacesTheImage :=
  fun img hlen => ⟨readMem_launch hlen, rfl, ⟨rfl, rfl⟩, fun _ => rfl, rfl, rfl, launch_inv img⟩

end Sys2Proof.Proofs
end

section
/-! SUPPORT. Flags as bits and masks of R15 (10_state.md R14, R15): the low byte that no update names, and the results and flags of
an addition (40_arithmetic.md R70, R72), a product (R73) and a comparison (41_compare.md R85) as the statements write them. -/

namespace Sys2Proof.Laws

open Sys2Proof.Machine

theorem flag_eq_getMsbD (s : State) (f : Flag) : s.flag f = (s.readReg 15).getMsbD (flagBit f).val := by
  rw [flag_eq, BitVec.getMsbD, decide_eq_true (flagBit f).isLt, Bool.true_and]

/-! ### The low byte -/

theorem flagMask_and_low (f : Flag) : flagMask f &&& 0x00FF = 0 := by
  cases f <;> decide

theorem namedMask_and_low (fs : FlagUpdate) : namedMask fs &&& 0x00FF = 0 := by
  induction fs with
  | nil => rfl
  | cons e fs ih => rw [namedMask, BitVec.and_or_distrib_right, flagMask_and_low, ih, BitVec.or_self]

theorem setMask_and_low (fs : FlagUpdate) : setMask fs &&& 0x00FF = 0 := by
  induction fs with
  | nil => rfl
  | cons e fs ih =>
    obtain ⟨f, b⟩ := e
    have hf : (if b then flagMask f else 0) &&& 0x00FF = 0 := by
      cases b
      · exact BitVec.zero_and
      · exact flagMask_and_low f
    rw [setMask, BitVec.and_or_distrib_right, hf, ih, BitVec.or_self]

theorem not_and_eq_of_and_eq_zero {x m : Word} (h : x &&& m = 0) : ~~~x &&& m = m := by
  calc ~~~x &&& m = (x &&& m) ||| (~~~x &&& m) := by rw [h]; exact BitVec.zero_or.symm
    _ = m := by rw [← BitVec.and_or_distrib_right, BitVec.or_not_self, BitVec.allOnes_and]

theorem mergeFlags_and_low (w : Word) (fs : FlagUpdate) : mergeFlags w fs &&& 0x00FF = w &&& 0x00FF := by
  rw [mergeFlags, BitVec.and_or_distrib_right, setMask_and_low, BitVec.and_assoc,
    not_and_eq_of_and_eq_zero (namedMask_and_low fs)]
  exact BitVec.or_zero

/-! ### Addition -/

theorem addWithFlags_r (A B : Word) (cin : Bool) : (addWithFlags A B cin).r = A + B + BitVec.ofNat 16 cin.toNat := by
  change BitVec.ofInt 16 ((A.toNat + B.toNat + cin.toNat : Nat) : Int) = _
  rw [BitVec.ofInt_natCast, BitVec.ofNat_add, BitVec.ofNat_add, BitVec.ofNat_toNat, BitVec.ofNat_toNat,
    BitVec.setWidth_eq, BitVec.setWidth_eq]

theorem addWithFlags_V_iff (A B : Word) (cin : Bool) :
    (addWithFlags A B cin).V = true ↔ 65536 ≤ A.toNat + B.toNat + cin.toNat := decide_eq_true_iff

/-- Signed overflow by the signs: an exact sum outside the signed range has two operands of one sign and a word of the other. -/
theorem addWithFlags_v_iff (A B : Word) (cin : Bool) :
    (addWithFlags A B cin).v = true ↔ A.msb = B.msb ∧ (A + B + BitVec.ofNat 16 cin.toNat).msb ≠ A.msb := by
  have hA := A.isLt
  have hB := B.isLt
  have hcin : cin.toNat ≤ 1 := Bool.toNat_le cin
  have hcinInt : cin.toInt = cin.toNat := by cases cin <;> rfl
  simp only [addWithFlags, outsideSigned, decide_eq_true_eq, signed, BitVec.toInt_eq_toNat_cond, hcinInt,
    BitVec.msb_eq_decide, BitVec.toNat_add, BitVec.toNat_ofNat]
  grind

theorem mergeFlags_addWithFlags (w A B : Word) (cin : Bool) :
    mergeFlags w (sumFlags (addWithFlags A B cin)) = sumFlagWord w A B cin := by
  rw [mergeFlags_sumFlags _ _ rfl]
  simp only [addWithFlags_V_iff, addWithFlags_v_iff, sumFlagWord]

theorem sumFlagWord_carry (w A B : Word) (cin : Bool) :
    (sumFlagWord w A B cin).getMsbD 7 = decide (65536 ≤ A.toNat + B.toNat + cin.toNat) := by
  unfold sumFlagWord
  split_ifs <;> simp_all [BitVec.getMsbD]

theorem twosComplement_eq_neg (w : Word) : twosComplement w = -w := by
  rw [twosComplement, low16, BitVec.ofInt_neg, unsigned, BitVec.ofInt_natCast, BitVec.ofNat_toNat, BitVec.setWidth_eq]

/-- Adding the two's complement carries out when nothing is borrowed and the subtrahend is not 0. -/
theorem carry_of_neg_iff (A B : Word) : 65536 ≤ A.toNat + (-B).toNat ↔ B ≠ 0 ∧ B.toNat ≤ A.toNat := by
  have hA := A.isLt
  have hB := B.isLt
  rw [Ne, ← BitVec.toNat_inj, BitVec.toNat_neg]
  change _ ↔ ¬B.toNat = 0 ∧ _
  omega

/-! ### Multiplication -/

theorem outsideSigned_iff (p : Int) : outsideSigned p = true ↔ (low16 p).toInt ≠ p := by
  have hlow : -32768 ≤ (low16 p).toInt := BitVec.le_toInt (low16 p)
  have hhigh : (low16 p).toInt < 32768 := BitVec.toInt_lt
  have hfits (h1 : -32768 ≤ p) (h2 : p < 32768) : (low16 p).toInt = p := BitVec.toInt_ofInt_eq_self (by decide) h1 h2
  rw [outsideSigned, decide_eq_true_eq]
  omega

theorem low16_mul_signed (A B : Word) : low16 (signed A * signed B) = A * B := by
  rw [low16, BitVec.ofInt_mul, BitVec.ofInt_toInt, BitVec.ofInt_toInt]

/-! ### Comparison -/

theorem ult_eq_not_ult_of_ne {A B : Word} (h : A ≠ B) : A.ult B = !B.ult A := by
  have hne : A.toNat ≠ B.toNat := fun e => h (BitVec.toNat_inj.mp e)
  rw [BitVec.ult, BitVec.ult, ← decide_not, decide_eq_decide]
  omega

theorem slt_eq_not_slt_of_ne {A B : Word} (h : A ≠ B) : A.slt B = !B.slt A := by
  have hne : A.toInt ≠ B.toInt := fun e => h (BitVec.toInt_inj.mp e)
  rw [BitVec.slt, BitVec.slt, ← decide_not, decide_eq_decide]
  omega

theorem compareFlags_eq (A B : Word) :
    compareFlags A B =
      [(.ccG, B.ult A), (.ccg, B.slt A), (.ccE, decide (A = B)), (.ccl, A.slt B), (.ccL, A.ult B)] := rfl

theorem mergeFlags_compareFlags_eq (w A B : Word) : mergeFlags w (compareFlags A B) = compareFlagWord w A B := by
  rw [mergeFlags_compareFlags, compareFlagWord, compareFlags_eq]
  congr 1
  by_cases h : A = B
  · subst h
    simp [BitVec.ult, BitVec.slt]
    decide
  · have hmasks : ∀ gu gs : Bool,
        setMask [(.ccG, gu), (.ccg, gs), (.ccE, false), (.ccl, !gs), (.ccL, !gu)] =
          (if gu then 0x8000 else 0x0800) ||| (if gs then 0x4000 else 0x1000) := by decide
    rw [ult_eq_not_ult_of_ne h, slt_eq_not_slt_of_ne h, decide_eq_false h, hmasks, if_neg h]

/-- Bit `k` of R15 after a comparison is the relation that it reports. -/
theorem compareFlagWord_getMsbD (w A B : Word) (k : Fin 5) :
    (compareFlagWord w A B).getMsbD k.val = flagRelation k A B := by
  have hcleared : (w &&& 0x07FF).getMsbD k.val = false := by
    fin_cases k <;> simp [BitVec.getMsbD]
  rw [compareFlagWord, BitVec.getMsbD_or, hcleared, Bool.false_or]
  by_cases h : A = B
  · subst h
    rw [if_pos rfl]
    fin_cases k <;> simp [flagRelation, BitVec.ult, BitVec.slt]
  · rw [if_neg h]
    have hbits : ∀ (k : Fin 5) (gu gs : Bool),
        ((if gu then 0x8000 else 0x0800) ||| (if gs then 0x4000 else 0x1000) : Word).getMsbD k.val =
          ![gu, gs, false, !gs, !gu] k := by decide
    rw [hbits]
    fin_cases k
    exacts [rfl, rfl, (beq_eq_false_iff_ne.mpr h).symm, (slt_eq_not_slt_of_ne h).symm, (ult_eq_not_ult_of_ne h).symm]

end Sys2Proof.Laws
end

section
/-! Flags (10_state.md R14 to R16). -/

namespace Sys2Proof.Proofs

open Sys2Proof.Machine Sys2Proof.Laws

/-- Settles O3: the masks are evaluated; a flag is the bit of its mask; and no flag is in the low byte. -/
theorem flagsAreTheNamedBitsOfR15 : Obligations.FlagsAreTheNamedBitsOfR15 := by
  refine ⟨by decide, flag_eq_getMsbD, fun s f v => ?written, fun s d fs => ?lowByte⟩
  case written => rw [flag_eq_getMsbD, readReg_writeReg, if_neg (by decide), if_pos rfl]
  case lowByte =>
    rw [readReg_writeFlags]
    split
    · exact mergeFlags_and_low _ fs
    · rfl

/-- Settles O5: the two flags of the carry are one value by definition; the other three parts are laws of the addition. -/
theorem addWithFlagsIsTheSixteenBitSum : Obligations.AddWithFlagsIsTheSixteenBitSum :=
  fun A B cin => ⟨addWithFlags_r A B cin, rfl, addWithFlags_V_iff A B cin, addWithFlags_v_iff A B cin⟩

end Sys2Proof.Proofs
end

section
/-! SUPPORT. The whole effect of the instructions with a result to Rd and an implicit write of R15 (10_state.md R13, R15, R16). -/

namespace Sys2Proof.Laws

open Sys2Proof.Machine

/-- In `s`, the one-word instruction `i` leaves `v` in Rd and `r15` in R15 when that is not Rd, and changes nothing else but
the pc. -/
def WritesResultAndR15 (i : Instr) (s : State) (d : Reg) (v r15 : Word) : Prop :=
  ∃ t, exec i s = .next t ∧ t.pc = s.pc + 1 ∧ (∀ j, t.readReg j = regsAfter s d v r15 j) ∧ SameMemory s t ∧ SameHost s t

theorem writesResultAndR15_of_flagged {i : Instr} {s : State} {d : Reg} {v : Word} {fs : FlagUpdate}
    (hexec : exec i s = .next (((s.writeReg d v).writeFlags d fs).advance 1)) :
    WritesResultAndR15 i s d v (mergeFlags (s.readReg 15) fs) :=
  ⟨_, hexec, by simp, fun j => readReg_writeReg_writeFlags s d j v fs, fun _ => by simp, by simp [SameHost]⟩

theorem writesResultAndR15_of_sum {i : Instr} {s : State} {d : Reg} {A B : Word} {cin : Bool}
    (hexec : exec i s = .next (s.writeSum d (addWithFlags A B cin))) :
    WritesResultAndR15 i s d (A + B + BitVec.ofNat 16 cin.toNat) (sumFlagWord (s.readReg 15) A B cin) := by
  rw [← addWithFlags_r, ← mergeFlags_addWithFlags]
  exact writesResultAndR15_of_flagged hexec

theorem writesResultAndR15_of_quotient {i : Instr} {s : State} {d : Reg} {A B : Word} (hB : B ≠ 0)
    (hexec : exec i s = .next (s.writeQuotient d A B)) :
    WritesResultAndR15 i s d (low16 (floorDiv (signed A) (signed B))) (low16 (floorMod (signed A) (signed B))) :=
  ⟨_, hexec, writeQuotient_pc .., fun j => (readReg_writeQuotient s d j A B).trans (if_neg hB),
    readMem_writeQuotient s d A B, by simp [SameHost]⟩

end Sys2Proof.Laws
end

section
/-! The five arithmetic instructions (40_arithmetic.md R71 to R75). -/

namespace Sys2Proof.Proofs

open Sys2Proof.Machine Sys2Proof.Laws

theorem add_zeroCarry (x : Word) : x + BitVec.ofNat 16 false.toNat = x := BitVec.add_zero x

/-- Settles O6: `add` is the shared addition with no carry in. -/
theorem addWritesSumAndFlags : Obligations.AddWritesSumAndFlags := by
  intro d a b s
  have hsum : WritesResultAndR15 (.add d a b) s d _ _ := writesResultAndR15_of_sum rfl
  rwa [add_zeroCarry] at hsum

/-- Settles O7: the carry in is the flag ccC, bit 7 of R15. -/
theorem addcWritesSumWithCarryAndFlags : Obligations.AddcWritesSumWithCarryAndFlags := by
  intro d a b s
  have hcarry : s.flag .ccC = (s.readReg 15).getMsbD 7 := flag_eq_getMsbD s .ccC
  rw [← hcarry]
  exact (writesResultAndR15_of_sum rfl : WritesResultAndR15 (.addc d a b) s d _ _)

theorem sumFlagWord_neg (w A B : Word) :
    sumFlagWord w A (-B) false = (w &&& 0xF8FF) ||| (if B ≠ 0 ∧ B.toNat ≤ A.toNat then 0x0500 else 0)
      ||| (if A.msb = (-B).msb ∧ (A - B).msb ≠ A.msb then 0x0200 else 0) := by
  simp only [sumFlagWord, BitVec.add_zero, Bool.toNat_false, Nat.add_zero, carry_of_neg_iff, BitVec.sub_eq_add_neg]

/-- Settles O8: `sub` is the addition of the two's complement. -/
theorem subWritesDifferenceAndNoBorrowFlags : Obligations.SubWritesDifferenceAndNoBorrowFlags := by
  intro d a b s
  have hsum : WritesResultAndR15 (.sub d a b) s d _ _ := writesResultAndR15_of_sum rfl
  rw [twosComplement_eq_neg, add_zeroCarry, sumFlagWord_neg, ← BitVec.sub_eq_add_neg] at hsum
  exact hsum

/-- Settles O9: the low half is the product of the words, and ccv says that it is not the exact product. -/
theorem mulWritesLowHalfAndOverflowFlag : Obligations.MulWritesLowHalfAndOverflowFlag := by
  intro d a b s
  have hproduct : WritesResultAndR15 (.mul d a b) s d _ _ := writesResultAndR15_of_flagged rfl
  rw [mergeFlags_productFlags] at hproduct
  simp only [outsideSigned_iff, low16_mul_signed] at hproduct
  exact hproduct

theorem div_writesResultAndR15 (d a : Reg) {b : Reg} {s : State} (hb : s.readReg b ≠ 0) :
    WritesResultAndR15 (.div d a b) s d (low16 (floorDiv (signed (s.readReg a)) (signed (s.readReg b))))
      (low16 (floorMod (signed (s.readReg a)) (signed (s.readReg b)))) :=
  writesResultAndR15_of_quotient hb rfl

theorem signed_ne_zero {B : Word} (h : B ≠ 0) : signed B ≠ 0 := fun e => h (BitVec.toInt_inj.mp e)

/-- Settles O11: the quotient is the floor of the rational quotient. -/
theorem divWritesFloorQuotientAndRemainder : Obligations.DivWritesFloorQuotientAndRemainder := by
  intro d a b s hb
  rw [← floorDiv_eq_floor _ (signed_ne_zero hb)]
  exact div_writesResultAndR15 d a hb

/-- Settles O12: the end of a division writes no register when the divisor is 0. -/
theorem divByZeroOnlyAdvances : Obligations.DivByZeroOnlyAdvances := by
  intro d a b s hb
  exact ⟨_, rfl, writeQuotient_pc .., fun j => (readReg_writeQuotient s d j _ _).trans (if_pos hb),
    readMem_writeQuotient s d _ _, by simp [SameHost]⟩

/-! ### The division laws on words -/

theorem floorDiv_mul_add_floorMod (n m : Int) : floorDiv n m * m + floorMod n m = n := by
  rw [floorMod, mul_comm]
  exact add_sub_cancel _ n

theorem low16_floorDiv_mul_add (A B : Word) :
    low16 (floorDiv (signed A) (signed B)) * B + low16 (floorMod (signed A) (signed B)) = A := by
  calc low16 (floorDiv (signed A) (signed B)) * B + low16 (floorMod (signed A) (signed B))
      = low16 (floorDiv (signed A) (signed B) * signed B + floorMod (signed A) (signed B)) := by
        rw [low16, low16, low16, BitVec.ofInt_add, BitVec.ofInt_mul, BitVec.ofInt_toInt]
    _ = A := by rw [floorDiv_mul_add_floorMod, low16, BitVec.ofInt_toInt]

/-- The remainder fits in a signed word, being smaller than the divisor. -/
theorem toInt_low16_floorMod (n : Int) {B : Word} (hB : B ≠ 0) :
    (low16 (floorMod n (signed B))).toInt = floorMod n (signed B) := by
  have hlow : -32768 ≤ signed B := BitVec.le_toInt B
  have hhigh : signed B < 32768 := BitVec.toInt_lt
  refine BitVec.toInt_ofInt_eq_self (by decide) ?_ ?_
  all_goals
    rcases lt_or_gt_of_ne (signed_ne_zero hB) with hneg | hpos
    · have := floorMod_bounds_of_neg n hneg
      omega
    · have := floorMod_bounds_of_pos n hpos
      omega

theorem low16_floorMod_eq_zero_or_msb (n : Int) {B : Word} (hB : B ≠ 0) :
    low16 (floorMod n (signed B)) = 0 ∨ (low16 (floorMod n (signed B))).msb = B.msb := by
  have hm := signed_ne_zero hB
  by_cases hzero : floorMod n (signed B) = 0
  · exact .inl (congrArg low16 hzero)
  · have hsign := (floorMod_eq_zero_or_sign n hm).resolve_left hzero
    refine .inr ?_
    rw [BitVec.msb_eq_toInt, BitVec.msb_eq_toInt, toInt_low16_floorMod n hB, decide_eq_decide]
    change _ ↔ signed B < 0
    omega

/-- Settles O13: the words of quotient and remainder satisfy the division law, and the remainder's word reads, as signed, as the
remainder itself, whose bound and sign are known. -/
theorem divQuotientTimesDivisorPlusRemainder : Obligations.DivQuotientTimesDivisorPlusRemainder := by
  intro d a b s hd0 hd15 hb
  obtain ⟨t, hexec, -, hregs, -⟩ := div_writesResultAndR15 d a hb
  have hm := signed_ne_zero hb
  have hquotient := (hregs d).trans (regsAfter_self _ _ hd0)
  have hremainder : t.readReg 15 = _ := (hregs 15).trans (regsAfter_flagReg hd15)
  refine ⟨t, hexec, ?law, ?bound, ?sign⟩
  case law => rw [hquotient, hremainder, low16_floorDiv_mul_add]
  case bound =>
    rw [hremainder, toInt_low16_floorMod _ hb]
    exact abs_floorMod_lt _ hm
  case sign =>
    rw [hremainder]
    exact low16_floorMod_eq_zero_or_msb _ hb

end Sys2Proof.Proofs
end

section
/-! Addition of 32-bit numbers (40_arithmetic.md R75). -/

namespace Sys2Proof.Proofs

open Sys2Proof.Machine Sys2Proof.Laws

theorem toNat_append_word (hi lo : Word) : (hi ++ lo).toNat = hi.toNat * 65536 + lo.toNat := by
  rw [BitVec.toNat_append, ← Nat.shiftLeft_add_eq_or_of_lt lo.isLt, Nat.shiftLeft_eq]

/-- The high half of a sum takes the carry out of the low half. -/
theorem append_add_append (Ah Al Bh Bl : Word) :
    (Ah ++ Al) + (Bh ++ Bl) =
      (Ah + Bh + BitVec.ofNat 16 (decide (65536 ≤ Al.toNat + Bl.toNat)).toNat) ++ (Al + Bl) := by
  have hAl := Al.isLt
  have hBl := Bl.isLt
  apply BitVec.eq_of_toNat_eq
  rw [BitVec.toNat_add, toNat_append_word, toNat_append_word, toNat_append_word]
  simp only [BitVec.toNat_add, BitVec.toNat_ofNat]
  by_cases hcarry : 65536 ≤ Al.toNat + Bl.toNat
  · simp only [hcarry, decide_true, Bool.toNat_true]
    omega
  · simp only [hcarry, decide_false, Bool.toNat_false]
    omega

/-- Settles O14: the first addition leaves its carry in ccC and the operands of the second as they were. -/
theorem addThenAddcAddsThirtyTwoBits : Obligations.AddThenAddcAddsThirtyTwoBits := by
  intro dl al bl dh ah bh s hdl hdl15 hdh hne hah hbh hah15 hbh15
  obtain ⟨t, hadd, -, hregs, -⟩ := addWritesSumAndFlags dl al bl s
  obtain ⟨v, haddc, -, hregs', -⟩ := addcWritesSumWithCarryAndFlags dh ah bh t
  have hkept {j : Reg} (hj : j ≠ dl) (hj15 : j ≠ 15) : t.readReg j = s.readReg j :=
    (hregs j).trans (regsAfter_of_ne _ _ hj hj15)
  have hcarry : (t.readReg 15).getMsbD 7 = decide (65536 ≤ (s.readReg al).toNat + (s.readReg bl).toNat) := by
    rw [hregs, regsAfter_flagReg hdl15, sumFlagWord_carry, Bool.toNat_false, Nat.add_zero]
  have hlow : v.readReg dl = s.readReg al + s.readReg bl := by
    rw [hregs', regsAfter_of_ne _ _ hne.symm hdl15, hregs, regsAfter_self _ _ hdl]
  refine ⟨t, v, hadd, haddc, ?_⟩
  rw [hlow, hregs', regsAfter_self _ _ hdh, hkept hah hah15, hkept hbh hbh15, hcarry, append_add_append]

end Sys2Proof.Proofs
end

section
/-! `cmp` and the branches after it (41_compare.md R85, 45_jumps.md R131, R132). -/

namespace Sys2Proof.Proofs

open Sys2Proof.Machine Sys2Proof.Laws

/-- Settles O15: `cmp` is one flag update, and that update writes each of the five flags. -/
theorem cmpWritesItsFiveFlags : Obligations.CmpWritesItsFiveFlags := by
  refine fun a b s => ⟨_, rfl, by simp, fun j => ?regs, fun _ => by simp, by simp [SameHost]⟩
  case regs =>
    rw [readReg_advance, readReg_writeFlags, mergeFlags_compareFlags_eq]
    exact if_congr (and_iff_left (by decide)) rfl rfl

/-- Settles O17: the bit that the jump tests is the relation of the values compared. -/
theorem compareThenBranchFollowsTheRelation : Obligations.CompareThenBranchFollowsTheRelation := by
  intro a b c disp k s
  obtain ⟨t, hcmp, hpc, hregs, -⟩ := cmpWritesItsFiveFlags a b s
  have hbit : (t.readReg 15).getMsbD k.val = flagRelation k (s.readReg a) (s.readReg b) := by
    rw [hregs, if_pos rfl, compareFlagWord_getMsbD]
  have hnext : t.pc + 2 = s.pc + 3 := by rw [hpc, BitVec.add_assoc]; rfl
  obtain ⟨v, hjumpc1, hpc1, -⟩ := jumpc1_setsOnlyPc (k.castLE (by decide)) c disp t
  obtain ⟨u, hjumpc0, hpc0, -⟩ := jumpc0_setsOnlyPc (k.castLE (by decide)) c disp t
  rw [Fin.val_castLE, hbit, hnext] at hpc1 hpc0
  exact ⟨t, hcmp, ⟨v, hjumpc1, hpc1⟩, ⟨u, hjumpc0, hpc0⟩⟩

end Sys2Proof.Proofs
end
